-- ==== Sys2Proof/Word.lean ====
section
/-! DEFINITION. The widths the spec gives values, each under its own name (R6, R7). -/

namespace Sys2Proof

/-- A message byte, 8 bits unsigned (R6, R31). -/
abbrev Byte := BitVec 8

/-- The shift register `reg` and the checksum, 16 bits unsigned (R10). -/
abbrev RegWord := BitVec 16

/-- The transient `t` of a bit-step, 17 bits (R11). -/
abbrev WideWord := BitVec 17

/-- An operand of `LZC`, a 32-bit pattern (R48). -/
abbrev Pattern := BitVec 32

/-- A response word `rsp[31:0]` (R51). -/
abbrev Response := BitVec 32

/-- A command word `cmd[33:0]` (R45). -/
abbrev CmdWord := BitVec 34

end Sys2Proof
end

