-- ==== Sys2Proof/Syntax.lean ====
section
/-! DEFINITION. The four commands (R49), and what a host writes before it is a command word (R53, R54). -/

namespace Sys2Proof

/-- The commands of the block, one constructor per row of the opcode table (R49). Operands have exactly
the widths of their fields (R47, R48), so every term is a command of the block. -/
inductive Instr where
  /-- `CRC_INIT` (R68). -/
  | crcInit
  /-- `CRC_BYTE byte` (R69), `byte = data[7:0]` (R47). -/
  | crcByte (byte : Byte)
  /-- `CRC_FINAL` (R70). -/
  | crcFinal
  /-- `LZC x` (R87), `x = data[31:0]` (R48). -/
  | lzc (x : Pattern)
deriving DecidableEq, Repr

/-- The operand of a script's `LZC` line: a pattern written in hexadecimal, or a signed integer written in
decimal (R53). -/
inductive LzcOperand where
  | pattern (n : Nat)
  | signed (n : Int)
deriving DecidableEq, Repr

/-- One line of a script (R53), the pseudo-instruction `CRC16` among them (R54). Operands are the host's
numbers, of any size: whether they fit is checked by `SourceCmd.wf` (R96). -/
inductive SourceCmd where
  | crcInit
  | crcByte (value : Nat)
  | crcFinal
  | lzc (value : LzcOperand)
  | crc16 (bytes : List Nat)
deriving DecidableEq, Repr

end Sys2Proof
end

