-- ==== Sys2Proof/WellFormed.lean ====
section
/-! DEFINITION. The checks on terms. An `Instr` needs none beyond its types (no command is illegal, R50, R95);
a script line's operands must fit their fields (R96, S6); a command word may or may not be canonical (R50). -/

namespace Sys2Proof

/-- Every command is well formed: its operand fields have exactly 8 and 32 bits (R47, R48, R96) and no
combination is illegal (R50). Written constructor by constructor, so that a fifth command would need its own line. -/
def Instr.wf : Instr → Bool
  | .crcInit => true
  | .crcByte _ => true
  | .crcFinal => true
  | .lzc _ => true

/-- A number that fits the byte field (R47): "`<byte>` is 0..255" (R53). -/
def byteFits (n : Nat) : Bool := n < 2 ^ 8

/-- An operand of `LZC` that fits its field (R53): a pattern of 32 bits, or an integer of the 32-bit signed
range (R48, R86). -/
def LzcOperand.fits : LzcOperand → Bool
  | .pattern n => n < 2 ^ 32
  | .signed n => decide (-(2 ^ 31) ≤ n) && decide (n < 2 ^ 31)

/-- The check of a script line (R53, R54, R96): all its operands fit. -/
def SourceCmd.wf : SourceCmd → Bool
  | .crcInit => true
  | .crcByte n => byteFits n
  | .crcFinal => true
  | .lzc v => v.fits
  | .crc16 bytes => bytes.all byteFits

/-- The bits of a command word that are not reserved, by opcode (R50, opcode_table.json `source_fields`). -/
def usedBits (op : BitVec 2) : CmdWord :=
  if op = 0b01#2 then 0x3000000FF#34 else if op = 0b11#2 then 0x3FFFFFFFF#34 else 0x300000000#34

/-- A word in the canonical encoding: its reserved bits are zero (R50). -/
def CmdWord.isCanonical (w : CmdWord) : Bool := w &&& usedBits (w.extractLsb' 32 2) == w

end Sys2Proof
end

