-- ==== Sys2Proof/Decode.lean ====
section
/-! DEFINITION. From command words to commands and back (R45 to R50), and from a host's numbers to commands
(R53, R54, R96). -/

namespace Sys2Proof

/-- `op = cmd[33:32]` (R45). -/
def opField (w : CmdWord) : BitVec 2 := w.extractLsb' 32 2

/-- `data = cmd[31:0]` (R45), whole, is the operand of `LZC` (R48). -/
def patternField (w : CmdWord) : Pattern := w.extractLsb' 0 32

/-- `byte = data[7:0]`, taken as it stands (R47). -/
def byteField (w : CmdWord) : Byte := w.extractLsb' 0 8

/-- The command a word stands for: the dispatch on `op` of R49. Total: no word is illegal and reserved bits
are ignored (R50).
DESIGN CHOICE (log 7): of the two treatments of reserved bits R50 allows a model, the exact one. Safe. -/
def decode (w : CmdWord) : Instr :=
  if opField w = 0b00#2 then .crcInit
  else if opField w = 0b01#2 then .crcByte (byteField w)
  else if opField w = 0b10#2 then .crcFinal
  else .lzc (patternField w)

/-- The word with the given fields: `{op, data}` (R45). -/
def assemble (op : BitVec 2) (data : BitVec 32) : CmdWord := op ++ data

/-- The canonical word of a command: reserved bits zero (R50, R68, R69, R70, R87). -/
def encode : Instr → CmdWord
  | .crcInit => assemble 0b00#2 0x00000000#32
  | .crcByte byte => assemble 0b01#2 (byte.setWidth 32)
  | .crcFinal => assemble 0b10#2 0x00000000#32
  | .lzc x => assemble 0b11#2 x

/-- A row of the opcode table: a word is the row's command when its masked bits are the match (R49). -/
structure OpcodeRow where
  mnemonic : String
  mask : CmdWord
  pattern : CmdWord
deriving DecidableEq, Repr

/-- The rows of R49 and opcode_table.json, in the table's order. -/
def opcodeTable : List OpcodeRow :=
  [⟨"CRC_INIT", 0x300000000#34, 0x000000000#34⟩, ⟨"CRC_BYTE", 0x300000000#34, 0x100000000#34⟩,
   ⟨"CRC_FINAL", 0x300000000#34, 0x200000000#34⟩, ⟨"LZC", 0x300000000#34, 0x300000000#34⟩]

/-- The row's match-and-mask test (R49). -/
def OpcodeRow.hits (r : OpcodeRow) (w : CmdWord) : Bool := w &&& r.mask == r.pattern

/-- A command's mnemonic in the table. -/
def Instr.mnemonic : Instr → String
  | .crcInit => "CRC_INIT"
  | .crcByte _ => "CRC_BYTE"
  | .crcFinal => "CRC_FINAL"
  | .lzc _ => "LZC"

/-- Why a value is no command: it does not fit its field (R96, S6; of a whole word, log 15). The block never meets such a value. -/
inductive TranscribeError where
  /-- A number with more than 34 bits offered as a command word (R45). -/
  | wordTooWide
  /-- A byte operand over 255 (R47). -/
  | byteOutOfRange
  /-- An `LZC` operand outside the 32-bit range (R48, R96). -/
  | valueOutOfRange
deriving DecidableEq, Repr

/-- A number read as a command word (R45): refused by name, not truncated, when it has more than 34 bits.
DEDUCED (log 15): R96 and S6 ask this of operands; the model does the same with a whole word. Safe. -/
def transcribeWord (n : Nat) : Except TranscribeError CmdWord :=
  if n < 2 ^ 34 then .ok (BitVec.ofNat 34 n) else .error .wordTooWide

/-- The word the host's numbering gives: the low `nbits` bits of `w`, every bit above them zero.
DEDUCED (log 15): the table's rows are 34 bits wide, so of a row given in whole bytes the bits above bit 33 must be zero. Safe. -/
def tableWord (nbits w : Nat) : Except TranscribeError CmdWord := transcribeWord (w % 2 ^ nbits)

/-- The command the decoder reads from an instruction whose bits are `w`, numbered as the opcode table
numbers them; none for a number that is no 34-bit word (DEDUCED, log 15; safe). -/
def decodeTableWord (nbits w : Nat) : Option Instr :=
  match tableWord nbits w with
  | .ok word => some (decode word)
  | .error _ => none

/-- `u32(n)`, the two's-complement pattern of a signed integer (R48, R86). -/
def u32 (n : Int) : Pattern := BitVec.ofInt 32 n

/-- The pattern an `LZC` operand stands for (R53). -/
def LzcOperand.toPattern : LzcOperand → Pattern
  | .pattern n => BitVec.ofNat 32 n
  | .signed n => u32 n

/-- A number as a message byte; one over 255 is refused, not truncated (R96, S6). -/
def transcribeByte (n : Nat) : Except TranscribeError Byte :=
  if byteFits n then .ok (BitVec.ofNat 8 n) else .error .byteOutOfRange

/-- An `LZC` operand as a pattern; one out of range is refused, not truncated (R96, S6). -/
def transcribePattern (v : LzcOperand) : Except TranscribeError Pattern :=
  if v.fits then .ok v.toPattern else .error .valueOutOfRange

/-- The bytes of a message, refused if one does not fit. -/
def transcribeBytes : List Nat → Except TranscribeError (List Byte)
  | [] => .ok []
  | n :: rest =>
    match transcribeByte n, transcribeBytes rest with
    | .ok b, .ok bs => .ok (b :: bs)
    | .error e, _ => .error e
    | .ok _, .error e => .error e

/-- The expansion of the pseudo-instruction `CRC16 [b0, ...]` (R54). -/
def crc16Commands (bytes : List Byte) : List Instr := .crcInit :: (bytes.map .crcByte ++ [.crcFinal])

/-- The commands of one script line (R53, R54). -/
def SourceCmd.expand : SourceCmd → Except TranscribeError (List Instr)
  | .crcInit => .ok [.crcInit]
  | .crcByte n => (transcribeByte n).map fun b => [.crcByte b]
  | .crcFinal => .ok [.crcFinal]
  | .lzc v => (transcribePattern v).map fun x => [.lzc x]
  | .crc16 bytes => (transcribeBytes bytes).map crc16Commands

end Sys2Proof
end

