-- ==== Sys2Proof/Config.lean ====
section
/-! DEFINITION. What is fixed for the machine: the constants of the engine (R6, R60), and the two values
the spec leaves to an implementation that a cycle-level view can meet (R7 `RSP_DEPTH`, R23 `sh`). -/

namespace Sys2Proof.Config

/-- `POLY` (R6, R60). -/
def poly : RegWord := 0x1021#16

/-- `MASK` as a 17-bit value: also the bound the overflow test compares with (R60, R61). -/
def mask : WideWord := 0xFFFF#17

/-- The value of `reg` before a message (R6, R60) and after reset (R23). -/
def regInit : RegWord := 0x0000#16

/-- The two appended bytes (R6). -/
def flushBytes : List Byte := [0x00#8, 0x00#8]

/-- The bits of a byte in the order they are consumed: masks `0x80` down to `0x01` (R33, R60). -/
def bitOrder : List Nat := [7, 6, 5, 4, 3, 2, 1, 0]

/-- `RSP_DEPTH` less one: the spec says only that the depth is at least 1 (R7, D6).
DESIGN CHOICE (log 10): a constant with no body. Safe: no proof can see its value. -/
opaque rspDepthLessOne : Nat

/-- `RSP_DEPTH >= 1`, the number of responses the block can hold (R7, R117). -/
def rspDepth : Nat := rspDepthLessOne + 1

/-- What `sh` of the reference sequencer holds after a reset, given what it held before: R23 and U4 leave
it open ("unspecified, never read before written").
DESIGN CHOICE (log 11): a free value, with no body. Safe: no proof can see its value. -/
opaque shAfterReset : Byte → Byte

end Sys2Proof.Config
end

