-- ==== Sys2Proof/Machine/Flags.lean ====
section
/-! DEFINITION. The one condition of the hardware: there are no stored flags (R17). -/

namespace Sys2Proof.Machine

/-- `ovf`: "`reg` now exceeds `0xFFFF`", an unsigned comparison on the 17-bit transient (R13, R17, R61). It
lives inside one bit-step and no command reads it. -/
def overflow (t : WideWord) : Bool := Config.mask < t

end Sys2Proof.Machine
end

