-- ==== Sys2Proof/Machine/Operands.lean ====
section
/-! DEFINITION. The forms operands and responses take: a byte as message bits (R33), the layout of the two response
words (R51). The fields of a command word are taken apart in Decode.lean (R47, R48). -/

namespace Sys2Proof.Machine

/-- The message bits of a byte in the order they are consumed, bit 7 first (R33). -/
def messageBits (byte : Byte) : List Bool := Config.bitOrder.map byte.getLsbD

/-- The extended buffer: the message followed by two zero bytes (R21, R32). It is never stored by the block. -/
def extendedBuffer (message : List Byte) : List Byte := message ++ Config.flushBytes

/-- A checksum as a response word: `rsp[15:0]`, zeros above (R51). -/
def checksumResponse (c : RegWord) : Response := c.setWidth 32

/-- A count 0 .. 32 as a response word: `rsp[5:0]`, zeros above (R51, R88). -/
def countResponse (n : Nat) : Response := (BitVec.ofNat 6 n).setWidth 32

end Sys2Proof.Machine
end

