-- ==== Sys2Proof/Machine/State.lean ====
section
/-! DEFINITION. The state of the block between two commands (R10), with its output (R25) and its host (R122) as
plain data; the reasons a step can stop (none, R95); the state after reset (R23). -/

namespace Sys2Proof.Machine

/-- What the host does to the block, one thing at a time (R122).
DESIGN CHOICE (log 2): the host is a list of events in `State`. Safe: the list is arbitrary, so every host is covered. -/
inductive HostEvent where
  /-- The command port accepts this word (R57). -/
  | command (w : CmdWord)
  /-- The host takes a response, if one is presented (R58). -/
  | takeResponse
  /-- Reset is requested (R110, R111). -/
  | reset
deriving DecidableEq, Repr

/-- The state at a command boundary (R10). The architectural state is `reg` alone; the other three fields are
the response stream of R25, in its two parts, and the host's events.
DEDUCED (log 1): the outputs stand in `State`, since a step's answer is a state. Safe: no command reads them. -/
structure State where
  /-- The shift register (R10). -/
  reg : RegWord
  /-- Responses computed and not yet taken by the host, oldest first (R22 (b), R58). -/
  rspQueue : List Response
  /-- Responses of this run the host has taken, oldest first (R25, R58). -/
  delivered : List Response
  /-- The host's events to come, the next one first (R122). -/
  input : List HostEvent
deriving DecidableEq, Repr

/-- The response stream: the words emitted since reset, in order (R25). -/
def State.stream (s : State) : List Response := s.delivered ++ s.rspQueue

/-- The block faults on nothing: "The set of exception causes is empty" (R95). So there is no constructor. -/
inductive Fault where
deriving DecidableEq, Repr

/-- Reasons a command has no meaning. -/
inductive Refusal where
  /-- A command without a meaning yet: raised by `exec`'s refused arms only; there is none. Safe. -/
  | notModelled (mnemonic : String)
deriving DecidableEq, Repr

/-- The machine right after reset: `reg = 0`, no response waiting, an empty response stream (R23, R110).
DESIGN CHOICE (log 2): no host event is placed. Safe: statements take any list of events. -/
def State.reset : State :=
  { reg := Config.regInit, rspQueue := [], delivered := [], input := [] }

end Sys2Proof.Machine
end

