-- ==== Sys2Proof/Machine/Ops.lean ====
section
/-! DEFINITION. The named operations: the functions of the two units (R61, R65, R67, R82, R85), and what a
command or the host does to the state. There is no memory (R30) and no exception to take or return from
(R95, R99, R100), so there are no operations for them. -/

namespace Sys2Proof.Machine

/-- `bitstep(r, b)` (R61): shift left, take in the message bit at bit 0, test, then mask and XOR together.
`t` is the 17-bit transient of R11. -/
def bitstep (r : RegWord) (b : Bool) : RegWord :=
  let t : WideWord := (r.setWidth 17 <<< 1) ||| (BitVec.ofBool b).setWidth 17
  if overflow t then (t &&& Config.mask).setWidth 16 ^^^ Config.poly else t.setWidth 16

/-- `bytestep(r, byte)` (R65): eight bit-steps, bit 7 of the byte first. -/
def bytestep (r : RegWord) (byte : Byte) : RegWord := (messageBits byte).foldl bitstep r

/-- The two zero byte-steps that end a message (R70). -/
def flush (r : RegWord) : RegWord := Config.flushBytes.foldl bytestep r

/-- `fold(p)`: `reg` in mid-message, after `CRC_INIT` and the bytes of `p` (R82). -/
def fold (p : List Byte) : RegWord := p.foldl bytestep Config.regInit

/-- `crc16(p)` (R67): the bytes of the message, then the two appended zero bytes. -/
def crc16 (p : List Byte) : RegWord := flush (fold p)

/-- The loop of R85 with `i` bits left to look at: bits `i - 1`, ..., 0. -/
def lzcFrom (x : Pattern) : Nat → Nat
  | 0 => 32
  | i + 1 => if x.getLsbD i then 31 - i else lzcFrom x i

/-- `lzc32(x)`, the count of zero bits above the highest set bit, 32 for zero (R85). -/
def lzc32 (x : Pattern) : Nat := lzcFrom x 32

/-- `reg <- v`. -/
def State.writeReg (s : State) (v : RegWord) : State := { s with reg := v }

/-- `emit(v)`: append a word to the response stream (R25); it waits for the host to take it (R58).
At this level the queue has no bound: DESIGN CHOICE of the spec (D6), log 4. Unsafe only for liveness claims. -/
def State.emit (s : State) (v : Response) : State := { s with rspQueue := s.rspQueue ++ [v] }

/-- The host takes the oldest waiting response, once (R58). With none waiting `rsp_valid` is 0 and nothing
happens (DEDUCED, log 6; safe). -/
def State.deliver (s : State) : State :=
  match s.rspQueue with
  | [] => s
  | v :: rest => { s with rspQueue := rest, delivered := s.delivered ++ [v] }

/-- The reset transition, from any state (R110, R111): `reg = 0`, responses not delivered are discarded, the
response stream starts again, empty. The host's later events are the host's own and stay.
DEDUCED (log 5). Safe: what was delivered before is in the states before. -/
def State.applyReset (s : State) : State :=
  { reg := Config.regInit, rspQueue := [], delivered := [], input := s.input }

/-- The host is about to present this command word. -/
def State.present (s : State) (w : CmdWord) : State := { s with input := .command w :: s.input }

/-- The output `rsp_valid` (R56). -/
def State.rspValid (s : State) : Bool := !s.rspQueue.isEmpty

/-- The output `rsp`, while `rsp_valid` is 1 (R56, R58). -/
def State.rsp (s : State) : Option Response := s.rspQueue.head?

end Sys2Proof.Machine
end

