-- ==== Sys2Proof/Machine/Crc16.lean ====
section
/-! DEFINITION. The commands of the CRC16 Engine (R68, R69, R70). -/

namespace Sys2Proof.Machine

/-- `CRC_INIT` (R68): `reg <- 0`, no response. -/
def execCrcInit (s : State) : Host.Outcome State Fault Refusal := .next (s.writeReg Config.regInit)

/-- `CRC_BYTE byte` (R69): `reg <- bytestep(reg, byte)`, no response. -/
def execCrcByte (byte : Byte) (s : State) : Host.Outcome State Fault Refusal :=
  .next (s.writeReg (bytestep s.reg byte))

/-- `CRC_FINAL` (R70): the two zero byte-steps, the response, then `reg <- 0`. -/
def execCrcFinal (s : State) : Host.Outcome State Fault Refusal :=
  .next ((s.emit (checksumResponse (flush s.reg))).writeReg Config.regInit)

end Sys2Proof.Machine
end

