-- ==== Sys2Proof/Machine/Lzc.lean ====
section
/-! DEFINITION. The command of the Leading-Zero-Count Utility (R87). -/

namespace Sys2Proof.Machine

/-- `LZC x` (R87): the response is the count; `reg` is neither read nor written (R92). -/
def execLzc (x : Pattern) (s : State) : Host.Outcome State Fault Refusal :=
  .next (s.emit (countResponse (lzc32 x)))

end Sys2Proof.Machine
end

