-- ==== Sys2Proof/Machine/Dispatch.lean ====
section
/-! DEFINITION. What each command does (R49): one arm per constructor of `Instr`. -/

namespace Sys2Proof.Machine

/-- The effect of one command (R49). -/
def exec (i : Instr) (s : State) : Host.Outcome State Fault Refusal :=
  match i with
  | .crcInit => Sys2Proof.Machine.execCrcInit s
  | .crcByte byte => Sys2Proof.Machine.execCrcByte byte s
  | .crcFinal => Sys2Proof.Machine.execCrcFinal s
  | .lzc x => Sys2Proof.Machine.execLzc x s

end Sys2Proof.Machine
end

