-- ==== Sys2Proof/Machine/Step.lean ====
section
/-! DEFINITION. One step of the block: the host's next event (R114, R122). -/

namespace Sys2Proof.Machine

/-- One step: the next event of the host. An accepted word is decoded and its command executed, whole, before
anything else happens (R38, R41, R49, R57). With no event left the block waits, unchanged: "every state is a
legal place to stop" (R114; DEDUCED, log 3; safe). -/
def step (s : State) : Host.Outcome State Fault Refusal :=
  match s.input with
  | [] => .next s
  | .command w :: rest => exec (decode w) { s with input := rest }
  | .takeResponse :: rest => .next (State.deliver { s with input := rest })
  | .reset :: rest => .next (State.applyReset { s with input := rest })

/-- `s` with the word put in front of the host's events, so that the next step accepts and executes exactly it.
DESIGN CHOICE (log 2): how a word comes to be the next one. DEDUCED (log 15): a number that is no 34-bit word cannot be
presented and changes nothing. Both safe. -/
def State.withFetchWord (s : State) (nbits w : Nat) : State :=
  match tableWord nbits w with
  | .ok word => s.present word
  | .error _ => s

end Sys2Proof.Machine
end

