-- ==== Sys2Proof/Machine/History.lean ====
section
/-! DEFINITION. The block seen from outside: which message is open and what the response stream should be after a list
of host events (R82, R114, R122), and which command emitted which response (R25, R41). None of it is state of the
block: it holds no message, no length and no "message open" flag (R21, R24). -/

namespace Sys2Proof.Machine

/-- The host's own account of a run: the bytes sent since the last point where `reg = 0` was established, and the
responses due since reset, oldest first (R122). -/
structure Account where
  message : List Byte
  due : List Response
deriving DecidableEq, Repr

/-- The account of a run that has just begun with a reset (R114). -/
def Account.start : Account := { message := [], due := [] }

/-- The account after one command (R49): it never looks at a register. -/
def Account.afterCommand (a : Account) : Instr → Account
  | .crcInit => { a with message := [] }
  | .crcByte byte => { a with message := a.message ++ [byte] }
  | .crcFinal => { message := [], due := a.due ++ [checksumResponse (crc16 a.message)] }
  | .lzc x => { a with due := a.due ++ [countResponse (lzc32 x)] }

/-- The account after one event of the host (R110, R114, R122). -/
def Account.after (a : Account) : HostEvent → Account
  | .command w => a.afterCommand (decode w)
  | .takeResponse => a
  | .reset => Account.start

/-- The account after a list of events. -/
def Account.afterAll (a : Account) (events : List HostEvent) : Account := events.foldl Account.after a

/-- The account agrees with a state: `reg` is the fold of the open message (R82), the response stream is what is
due (R25). -/
def Account.Matches (a : Account) (s : State) : Prop := s.reg = fold a.message ∧ s.stream = a.due

/-- The responses the commands of a list emit when they are executed one after another from `s`, each with the
command that emitted it: what a command adds to the response stream. -/
def emissions (s : State) : List Instr → List (Instr × Response)
  | [] => []
  | i :: rest =>
    match exec i s with
    | .next t => (t.stream.drop s.stream.length).map (fun v => (i, v)) ++ emissions t rest
    | .fault _ => []
    | .refused _ => []

/-- Not an `LZC` command. -/
def isCrcCommand : Instr → Bool
  | .crcInit => true
  | .crcByte _ => true
  | .crcFinal => true
  | .lzc _ => false

/-- The canonical words of a list of commands, as the events of a host that sends them (R53). -/
def commandEvents (commands : List Instr) : List HostEvent := commands.map fun i => .command (encode i)

end Sys2Proof.Machine
end

