-- ==== Sys2Proof/Machine/Script.lean ====
section
/-! DEFINITION. The textual forms of the spec: the nine-digit spelling of a command word (R46) and the script syntax
with its pseudo-instruction (R53, R54). Text is a list of characters. What R53 leaves open of the spelling is in log 16. -/

namespace Sys2Proof.Machine

/-- Why a line of text is no script line. -/
inductive ScriptError where
  /-- The first word is none of the five mnemonics. -/
  | unknownMnemonic
  /-- The operand is not of the form the mnemonic takes. -/
  | badOperand
  /-- The operand does not fit its field (R96). -/
  | refused (e : TranscribeError)
deriving DecidableEq, Repr

/-- A blank between words. -/
def isBlank (c : Char) : Bool := c == ' ' || c == '\t'

/-- The line without its comment (R53): everything before the first `;` that is not inside double quotes. -/
def stripComment : (quoted : Bool) → List Char → List Char
  | _, [] => []
  | quoted, c :: rest =>
    if c == ';' && !quoted then []
    else c :: stripComment (if c == '"' then !quoted else quoted) rest

/-- The text without the blanks at its two ends. -/
def trim (cs : List Char) : List Char := ((cs.dropWhile isBlank).reverse.dropWhile isBlank).reverse

/-- The value of a decimal digit. -/
def decDigit (c : Char) : Option Nat :=
  if 48 ≤ c.toNat ∧ c.toNat ≤ 57 then some (c.toNat - 48) else none

/-- The value of a hexadecimal digit, of either case. -/
def hexDigit (c : Char) : Option Nat :=
  if 65 ≤ c.toNat ∧ c.toNat ≤ 70 then some (c.toNat - 55)
  else if 97 ≤ c.toNat ∧ c.toNat ≤ 102 then some (c.toNat - 87)
  else decDigit c

/-- The number a list of digits spells, most significant first, after `acc`. -/
def readDigits (base : Nat) (digit : Char → Option Nat) (acc : Nat) : List Char → Option Nat
  | [] => some acc
  | c :: rest =>
    match digit c with
    | some d => readDigits base digit (acc * base + d) rest
    | none => none

/-- At least one digit, and digits only. -/
def readNumber (base : Nat) (digit : Char → Option Nat) : List Char → Option Nat
  | [] => none
  | c :: rest => readDigits base digit 0 (c :: rest)

/-- A byte operand: `0xNN` or decimal (R53). -/
def readByte : List Char → Option Nat
  | '0' :: 'x' :: digits => readNumber 16 hexDigit digits
  | digits => readNumber 10 decDigit digits

/-- An `LZC` operand: a pattern in hexadecimal or an integer in decimal, with a sign if it is negative (R53). -/
def readLzcOperand : List Char → Option LzcOperand
  | '0' :: 'x' :: digits => (readNumber 16 hexDigit digits).map .pattern
  | '-' :: digits => (readNumber 10 decDigit digits).map fun n => .signed (-(n : Int))
  | digits => (readNumber 10 decDigit digits).map fun n => .signed (n : Int)

/-- The text cut at every comma; `piece` is what has been read of the present piece, backwards. -/
def splitCommas (piece : List Char) : List Char → List (List Char)
  | [] => [piece.reverse]
  | c :: rest => if c == ',' then piece.reverse :: splitCommas [] rest else splitCommas (c :: piece) rest

/-- All of a list of optional values, or none of them. -/
def allOf {α : Type} : List (Option α) → Option (List α)
  | [] => some []
  | none :: _ => none
  | some a :: rest => (allOf rest).map (a :: ·)

/-- The bytes between brackets: none, or numbers between commas (R54). -/
def readByteList (inside : List Char) : Option (List Nat) :=
  if (trim inside).isEmpty then some []
  else allOf ((splitCommas [] inside).map fun piece => readByte (trim piece))

/-- The ASCII bytes of a string in double quotes, the closing quote last (R54). -/
def readQuoted : List Char → Option (List Nat)
  | [] => none
  | ['"'] => some []
  | c :: rest => if c == '"' || 127 < c.toNat then none else (readQuoted rest).map (c.toNat :: ·)

/-- The operand of `CRC16` (R54): a list of bytes or a string. -/
def readMessage : List Char → Option (List Nat)
  | '[' :: rest => if rest.getLast? = some ']' then readByteList rest.dropLast else none
  | '"' :: rest => readQuoted rest
  | _ => none

/-- What a mnemonic and its operand text stand for; mnemonics are upper case (R53). -/
def readCommand (mnemonic operand : List Char) : Except ScriptError SourceCmd :=
  let withOperand (o : Option SourceCmd) : Except ScriptError SourceCmd :=
    match o with
    | some c => .ok c
    | none => .error .badOperand
  if mnemonic = ['C', 'R', 'C', '_', 'I', 'N', 'I', 'T'] then
    withOperand (if operand.isEmpty then some .crcInit else none)
  else if mnemonic = ['C', 'R', 'C', '_', 'B', 'Y', 'T', 'E'] then
    withOperand ((readByte operand).map .crcByte)
  else if mnemonic = ['C', 'R', 'C', '_', 'F', 'I', 'N', 'A', 'L'] then
    withOperand (if operand.isEmpty then some .crcFinal else none)
  else if mnemonic = ['L', 'Z', 'C'] then
    withOperand ((readLzcOperand operand).map .lzc)
  else if mnemonic = ['C', 'R', 'C', '1', '6'] then
    withOperand ((readMessage operand).map .crc16)
  else .error .unknownMnemonic

/-- One line of a script: no command when it is blank or only a comment. -/
def readLine (line : List Char) : Except ScriptError (Option SourceCmd) :=
  let text := trim (stripComment false line)
  if text.isEmpty then .ok none
  else
    let mnemonic := text.takeWhile fun c => !isBlank c
    (readCommand mnemonic (trim (text.drop mnemonic.length))).map some

/-- The commands of a script, line by line in order; the first line that is none is named by its error (R53). -/
def readScript : List (List Char) → Except ScriptError (List Instr)
  | [] => .ok []
  | line :: rest =>
    match readLine line with
    | .error e => .error e
    | .ok none => readScript rest
    | .ok (some c) =>
      match c.expand, readScript rest with
      | .error e, _ => .error (.refused e)
      | .ok _, .error e => .error e
      | .ok is, .ok more => .ok (is ++ more)

/-- The command words of a script: each line assembles to canonical words (R53). -/
def assembleScript (lines : List (List Char)) : Except ScriptError (List CmdWord) :=
  (readScript lines).map fun is => is.map encode

/-- A hexadecimal digit as a character, upper case. -/
def hexChar (n : Nat) : Char := Char.ofNat (if n < 10 then 48 + n else 55 + n)

/-- The nine digits of a command word, most significant first: `op`, then the eight digits of `data` (R46). -/
def spelledDigits (w : CmdWord) : List Nat :=
  (opField w).toNat :: [28, 24, 20, 16, 12, 8, 4, 0].map fun k => (w.extractLsb' k 4).toNat

/-- The written spelling of a command word, `0xOdddddddd` (R46). -/
def spell (w : CmdWord) : List Char := '0' :: 'x' :: (spelledDigits w).map hexChar

/-- A written command word read back: `0x` and exactly nine digits, of a number of 34 bits (R46). -/
def readSpelling : List Char → Option CmdWord
  | '0' :: 'x' :: digits =>
    if digits.length = 9 then
      match (readNumber 16 hexDigit digits).map transcribeWord with
      | some (.ok w) => some w
      | some (.error _) => none
      | none => none
    else none
  | _ => none

end Sys2Proof.Machine
end

