-- ==== Sys2Proof/Machine/Sequencer.lean ====
section
/-! DEFINITION. The cycle-level view: the reference bit-serial sequencer (R120) behind the ports and handshakes of
R56, R57, R58. It is a refinement, not the architecture (R22, R120): its state beyond `reg` is hidden, and what it
answers at its ports is stated to be what the commands of Dispatch.lean answer. One call of `Sequencer.edge` is one edge of `clk`.
DESIGN CHOICE (log 13): `rst` is sampled at the edge and asserted high; `RESET_STYLE` is open (R111). Safe. -/

namespace Sys2Proof.Machine

/-- Whether a command is in execution (R120). -/
inductive Phase where
  | idle
  | shift
deriving DecidableEq, Repr

/-- The state of the sequencer (R22, R120). -/
structure Sequencer where
  /-- `reg[15:0]`. -/
  reg : RegWord
  /-- `sh[7:0]`, the byte being shifted out. -/
  sh : Byte
  /-- `cnt[4:0]`, bit-steps left, 0 .. 16. -/
  cnt : BitVec 5
  /-- The current work is a `CRC_FINAL`. -/
  fin : Bool
  phase : Phase
  /-- Responses computed and not yet taken, oldest first, at most `RSP_DEPTH`. -/
  queue : List Response
deriving DecidableEq, Repr

/-- The inputs of the block at one edge of the clock (R56). -/
structure Ports where
  rst : Bool
  cmdValid : Bool
  cmd : CmdWord
  rspReady : Bool
deriving DecidableEq, Repr

/-- Output `cmd_ready`: "exactly when `phase = IDLE` and the response queue is not full" (R120). -/
def Sequencer.cmdReady (m : Sequencer) : Bool := m.phase == .idle && decide (m.queue.length < Config.rspDepth)

/-- Output `rsp_valid` (R56, R58). -/
def Sequencer.rspValid (m : Sequencer) : Bool := !m.queue.isEmpty

/-- Output `rsp`, while `rsp_valid` is 1 (R56, R58). -/
def Sequencer.rsp (m : Sequencer) : Option Response := m.queue.head?

/-- A command is accepted at this edge (R57): not while `rst` is asserted (R98, R110). -/
def Sequencer.accepts (m : Sequencer) (p : Ports) : Bool := !p.rst && (p.cmdValid && m.cmdReady)

/-- A response is delivered at this edge: `rsp_valid` and `rsp_ready` both 1 (R58).
DEDUCED (log 12): R58 makes no exception for `rst`, so a response taken at the very edge that resets is taken. -/
def Sequencer.delivers (m : Sequencer) (p : Ports) : Bool := m.rspValid && p.rspReady

/-- The word delivered at this edge, if any (R58). -/
def Sequencer.deliveredWord (m : Sequencer) (p : Ports) : List Response :=
  if m.delivers p then m.rsp.toList else []

/-- The reset state (R23, R120): `sh` is a free value (log 11). -/
def Sequencer.afterReset (m : Sequencer) : Sequencer :=
  { reg := Config.regInit, sh := Config.shAfterReset m.sh, cnt := 0#5, fin := false, phase := .idle, queue := [] }

/-- Remove the word that is delivered. -/
def Sequencer.dequeue (m : Sequencer) : Sequencer := { m with queue := m.queue.tail }

/-- `enqueue response v` (R120). -/
def Sequencer.enqueue (m : Sequencer) (v : Response) : Sequencer := { m with queue := m.queue ++ [v] }

/-- "on accept in IDLE" (R120). -/
def Sequencer.accept (m : Sequencer) : Instr → Sequencer
  | .crcInit => { m with reg := Config.regInit }
  | .crcByte byte => { m with sh := byte, cnt := 8#5, fin := false, phase := .shift }
  | .crcFinal => { m with sh := 0#8, cnt := 16#5, fin := true, phase := .shift }
  | .lzc x => m.enqueue (countResponse (lzc32 x))

/-- "each cycle in SHIFT" (R120). -/
def Sequencer.shiftCycle (m : Sequencer) : Sequencer :=
  let nextReg := bitstep m.reg (m.sh.getLsbD 7)
  let shifted : Sequencer := { m with sh := m.sh <<< 1, cnt := m.cnt - 1#5 }
  if m.cnt = 1#5 then
    if m.fin then { shifted.enqueue (checksumResponse nextReg) with phase := .idle, reg := Config.regInit }
    else { shifted with phase := .idle, reg := nextReg }
  else { shifted with reg := nextReg }

/-- One edge of the clock: reset wins over everything (R98); otherwise the response handshake (R58), and then an
acceptance in `IDLE` (R57) or a cycle of work in `SHIFT` (R120). The two handshakes do not interact (R98): a word
enqueued at an edge is presented only after it (DEDUCED, log 12; safe). -/
def Sequencer.edge (m : Sequencer) (p : Ports) : Sequencer :=
  if p.rst then m.afterReset
  else
    let taken := if m.delivers p then m.dequeue else m
    match m.phase with
    | .idle => if m.accepts p then taken.accept (decode p.cmd) else taken
    | .shift => taken.shiftCycle

/-- The state after a list of edges. -/
def Sequencer.edges (m : Sequencer) (ports : List Ports) : Sequencer := ports.foldl Sequencer.edge m

/-- What the sequencer is always in: idle with no bit-steps left, or at work with 1 .. 8 of them left for a
byte and 1 .. 16 for a final (then with `sh = 0`), and room for the response it owes (R120, R117). -/
def Sequencer.Legal (m : Sequencer) : Prop :=
  match m.phase with
  | .idle => m.cnt = 0#5 ∧ m.queue.length ≤ Config.rspDepth
  | .shift => 1 ≤ m.cnt.toNat ∧ m.cnt.toNat ≤ (if m.fin then 16 else 8) ∧ (m.fin = true → m.sh = 0#8) ∧
      m.queue.length < Config.rspDepth

/-- What an edge of the clock is at the level of commands: the host's events in order. -/
def Sequencer.edgeEvents (m : Sequencer) (p : Ports) : List HostEvent :=
  (if m.delivers p then [.takeResponse] else []) ++
    (if p.rst then [.reset] else if m.accepts p then [.command p.cmd] else [])

/-- What an observer at the ports has seen: the sequencer, the words taken at `rsp` since the last reset, and
the events so far at the level of commands. -/
structure Observation where
  machine : Sequencer
  taken : List Response
  events : List HostEvent
deriving DecidableEq, Repr

/-- An observation that begins with a reset of `m` (R112, R114). -/
def Observation.start (m : Sequencer) : Observation := { machine := m.afterReset, taken := [], events := [] }

/-- One edge more. -/
def Observation.after (o : Observation) (p : Ports) : Observation :=
  { machine := o.machine.edge p
    taken := if p.rst then [] else o.taken ++ o.machine.deliveredWord p
    events := o.events ++ o.machine.edgeEvents p }

/-- The observation of a list of edges. -/
def Observation.afterAll (o : Observation) (ports : List Ports) : Observation := ports.foldl Observation.after o

end Sys2Proof.Machine
end

