-- ==== Sys2Proof/Machine/Structures.lean ====
section
/-! DEFINITION. The other structures the spec gives for the two functions (R63, R64, R66, R78, R90, R91). Which one an
implementation uses is not observable (R7, R9, D17, D18); the definitions of Ops.lean are normative and these are
stated equal to them. -/

namespace Sys2Proof.Machine

/-- The bit-step with the feedback decided by the old top bit (R63). -/
def bitstepClosed (r : RegWord) (b : Bool) : RegWord :=
  ((r <<< 1) ||| (BitVec.ofBool b).setWidth 16) ^^^ (if r.getLsbD 15 then Config.poly else 0x0000#16)

/-- Bit `i` after a bit-step, as the input of flip-flop `i` of a shift register with feedback taps (R64). -/
def bitstepTap (r : RegWord) (b : Bool) (i : Nat) : Bool :=
  let f := r.getLsbD 15
  if i = 0 then b ^^ f else if i = 5 ∨ i = 12 then r.getLsbD (i - 1) ^^ f else r.getLsbD (i - 1)

/-- `T`, rows `0x00` to `0x38`. -/
def tableRows0 : List RegWord :=
  [0x0000, 0x1021, 0x2042, 0x3063, 0x4084, 0x50A5, 0x60C6, 0x70E7,
   0x8108, 0x9129, 0xA14A, 0xB16B, 0xC18C, 0xD1AD, 0xE1CE, 0xF1EF,
   0x1231, 0x0210, 0x3273, 0x2252, 0x52B5, 0x4294, 0x72F7, 0x62D6,
   0x9339, 0x8318, 0xB37B, 0xA35A, 0xD3BD, 0xC39C, 0xF3FF, 0xE3DE,
   0x2462, 0x3443, 0x0420, 0x1401, 0x64E6, 0x74C7, 0x44A4, 0x5485,
   0xA56A, 0xB54B, 0x8528, 0x9509, 0xE5EE, 0xF5CF, 0xC5AC, 0xD58D,
   0x3653, 0x2672, 0x1611, 0x0630, 0x76D7, 0x66F6, 0x5695, 0x46B4,
   0xB75B, 0xA77A, 0x9719, 0x8738, 0xF7DF, 0xE7FE, 0xD79D, 0xC7BC]

/-- `T`, rows `0x40` to `0x78`. -/
def tableRows1 : List RegWord :=
  [0x48C4, 0x58E5, 0x6886, 0x78A7, 0x0840, 0x1861, 0x2802, 0x3823,
   0xC9CC, 0xD9ED, 0xE98E, 0xF9AF, 0x8948, 0x9969, 0xA90A, 0xB92B,
   0x5AF5, 0x4AD4, 0x7AB7, 0x6A96, 0x1A71, 0x0A50, 0x3A33, 0x2A12,
   0xDBFD, 0xCBDC, 0xFBBF, 0xEB9E, 0x9B79, 0x8B58, 0xBB3B, 0xAB1A,
   0x6CA6, 0x7C87, 0x4CE4, 0x5CC5, 0x2C22, 0x3C03, 0x0C60, 0x1C41,
   0xEDAE, 0xFD8F, 0xCDEC, 0xDDCD, 0xAD2A, 0xBD0B, 0x8D68, 0x9D49,
   0x7E97, 0x6EB6, 0x5ED5, 0x4EF4, 0x3E13, 0x2E32, 0x1E51, 0x0E70,
   0xFF9F, 0xEFBE, 0xDFDD, 0xCFFC, 0xBF1B, 0xAF3A, 0x9F59, 0x8F78]

/-- `T`, rows `0x80` to `0xB8`. -/
def tableRows2 : List RegWord :=
  [0x9188, 0x81A9, 0xB1CA, 0xA1EB, 0xD10C, 0xC12D, 0xF14E, 0xE16F,
   0x1080, 0x00A1, 0x30C2, 0x20E3, 0x5004, 0x4025, 0x7046, 0x6067,
   0x83B9, 0x9398, 0xA3FB, 0xB3DA, 0xC33D, 0xD31C, 0xE37F, 0xF35E,
   0x02B1, 0x1290, 0x22F3, 0x32D2, 0x4235, 0x5214, 0x6277, 0x7256,
   0xB5EA, 0xA5CB, 0x95A8, 0x8589, 0xF56E, 0xE54F, 0xD52C, 0xC50D,
   0x34E2, 0x24C3, 0x14A0, 0x0481, 0x7466, 0x6447, 0x5424, 0x4405,
   0xA7DB, 0xB7FA, 0x8799, 0x97B8, 0xE75F, 0xF77E, 0xC71D, 0xD73C,
   0x26D3, 0x36F2, 0x0691, 0x16B0, 0x6657, 0x7676, 0x4615, 0x5634]

/-- `T`, rows `0xC0` to `0xF8`. -/
def tableRows3 : List RegWord :=
  [0xD94C, 0xC96D, 0xF90E, 0xE92F, 0x99C8, 0x89E9, 0xB98A, 0xA9AB,
   0x5844, 0x4865, 0x7806, 0x6827, 0x18C0, 0x08E1, 0x3882, 0x28A3,
   0xCB7D, 0xDB5C, 0xEB3F, 0xFB1E, 0x8BF9, 0x9BD8, 0xABBB, 0xBB9A,
   0x4A75, 0x5A54, 0x6A37, 0x7A16, 0x0AF1, 0x1AD0, 0x2AB3, 0x3A92,
   0xFD2E, 0xED0F, 0xDD6C, 0xCD4D, 0xBDAA, 0xAD8B, 0x9DE8, 0x8DC9,
   0x7C26, 0x6C07, 0x5C64, 0x4C45, 0x3CA2, 0x2C83, 0x1CE0, 0x0CC1,
   0xEF1F, 0xFF3E, 0xCF5D, 0xDF7C, 0xAF9B, 0xBFBA, 0x8FD9, 0x9FF8,
   0x6E17, 0x7E36, 0x4E55, 0x5E74, 0x2E93, 0x3EB2, 0x0ED1, 0x1EF0]

/-- The table `T` as printed in 95_test_vectors.md section 6 (R66). -/
def crcTable : List RegWord := tableRows0 ++ tableRows1 ++ tableRows2 ++ tableRows3

/-- `T[h]`, looked up in the printed table. -/
def tableEntry (h : Byte) : RegWord := crcTable.getD h.toNat 0x0000#16

/-- The byte-step by table: `((r << 8) & 0xFFFF | b) ^ T[r[15:8]]` (R66). -/
def bytestepTable (r : RegWord) (byte : Byte) : RegWord :=
  ((r <<< 8) ||| byte.setWidth 16) ^^^ tableEntry (r.extractLsb' 8 8)

/-- One conditional shift-and-XOR of the direct form (R78). -/
def directShift (d : RegWord) : RegWord :=
  if d.getLsbD 15 then (d <<< 1) ^^^ Config.poly else d <<< 1

/-- One byte of the direct form: the byte goes into the top of the register, then eight shifts (R78). -/
def directByte (d : RegWord) (byte : Byte) : RegWord :=
  let d := d ^^^ (byte.setWidth 16 <<< 8)
  (List.range 8).foldl (fun d _ => directShift d) d

/-- The usual way to write the checksum, without appended bytes (R78). -/
def crc16Direct (p : List Byte) : RegWord := p.foldl directByte 0x0000#16

/-- The index of the highest set bit among the low `i` bits, if any: a priority encoder (R90). -/
def highestSetBelow (x : Pattern) : Nat → Option Nat
  | 0 => none
  | i + 1 => if x.getLsbD i then some i else highestSetBelow x i

/-- The priority-encoder structure: the six response bits are the complement of the 5-bit index, or `0b100000`
when no bit is set (R90). -/
def lzcPriorityBits (x : Pattern) : BitVec 6 :=
  match highestSetBelow x 32 with
  | none => 0b100000#6
  | some i => (~~~(BitVec.ofNat 5 i)).setWidth 6

/-- One stage of the logarithmic tree: if the top `w` bits are zero, count them and shift them out (R91). -/
def treeStage (w : Nat) (s : Nat × Pattern) : Nat × Pattern :=
  if s.2 >>> (32 - w) = 0#32 then (s.1 + w, s.2 <<< w) else s

/-- The logarithmic-tree structure (R91). -/
def lzc32Tree (x : Pattern) : Nat :=
  if x = 0#32 then 32 else (treeStage 1 (treeStage 2 (treeStage 4 (treeStage 8 (treeStage 16 (0, x)))))).1

/-- The pair-merging form: the summary (all zero, count) of the block of `2 ^ k` bits that starts at bit `lo`,
merged from its upper and lower half (R91). -/
def mergeBlock (x : Pattern) : Nat → Nat → Bool × Nat
  | 0, lo => (!x.getLsbD lo, if x.getLsbD lo then 0 else 1)
  | k + 1, lo =>
    let upper := mergeBlock x k (lo + 2 ^ k)
    let lower := mergeBlock x k lo
    if upper.1 then (lower.1, 2 ^ k + lower.2) else (false, upper.2)

/-- The count of the 32-bit block by pair merging (R91). -/
def lzc32Merge (x : Pattern) : Nat := (mergeBlock x 5 0).2

end Sys2Proof.Machine
end

