-- ==== Sys2Proof/Safety.lean ====
section
/-! DEFINITION. What a safe run is: one that never stops. The block has no error (R95), so every run is meant to be safe;
what the host owes (R122) is about usefulness, not safety, and is defined in Machine/History.lean. -/

namespace Sys2Proof

/-- The state after `n` steps from `s` is `t`. -/
def RunsTo (n : Nat) (s t : Machine.State) : Prop := Host.Core.run core n s = .next t

/-- No number of steps from `s` ends in a fault or a refusal (R95, R121). -/
def NeverStops (s : Machine.State) : Prop := ∀ n, ∃ t, RunsTo n s t

/-- Every word of the response stream is a 16-bit number, zero above: "`rsp[31:16] = 0`" (R51, R72). -/
def ResponsesFit (s : Machine.State) : Prop := ∀ v ∈ s.stream, v.toNat < 2 ^ 16

end Sys2Proof
end

