-- ==== Sys2Proof/Certificates/Slice0/Obligations.lean ====
section
/-! DEFINITION. The statements for the provers, from the numbered rules of the spec. -/

open Sys2Proof Sys2Proof.Machine

/-! ### Command words (30_encoding.md) -/

/-- The words of 95_test_vectors.md section 8 (E1 to E12), of R46 and of R87 stand for the commands the spec says (R45 to R50). -/
def Obligations.SpecWordsDecodeToTheirCommands : Prop :=
  decode 0x000000000#34 = .crcInit ∧ decode 0x0DEADBEEF#34 = .crcInit ∧
  decode 0x100000031#34 = .crcByte 0x31#8 ∧ decode 0x1FFFFFF31#34 = .crcByte 0x31#8 ∧
  decode 0x100000033#34 = .crcByte 0x33#8 ∧
  decode 0x200000000#34 = .crcFinal ∧ decode 0x2FFFFFFFF#34 = .crcFinal ∧
  decode 0x300000001#34 = .lzc 0x00000001#32 ∧ decode 0x3DEADBEEF#34 = .lzc 0xDEADBEEF#32

/-- R45 to R50: no operand bit of any command is dropped or moved by its canonical word. -/
def Obligations.DecodeOfEncodeIsTheCommand : Prop :=
  ∀ i : Instr, i.wf = true → decode (encode i) = i

/-- R50: encoding the command of a word clears exactly the word's reserved bits; canonical words come back. -/
def Obligations.EncodeOfDecodeClearsReservedBits : Prop :=
  ∀ w : CmdWord, encode (decode w) = w &&& usedBits (opField w) ∧
    CmdWord.isCanonical (encode (decode w)) = true ∧
    (CmdWord.isCanonical w = true → encode (decode w) = w)

/-- R49, R50: the match-and-mask rows of the opcode table meet every one of the `2^34` words exactly once, and the row
met names the command the decoder gives. -/
def Obligations.EveryWordMeetsExactlyOneOpcodeRow : Prop :=
  ∀ w : CmdWord, ∃ row, opcodeTable.filter (fun r => r.hits w) = [row] ∧ row.mnemonic = (decode w).mnemonic

/-- R50: the block ignores the reserved bits. Two words that agree on the bits in use take every state to the same outcome. -/
def Obligations.ReservedBitsChangeNothing : Prop :=
  ∀ (w v : CmdWord), w &&& usedBits (opField w) = v &&& usedBits (opField w) →
    ∀ s : State, step (s.present w) = step (s.present v)

/-- R46: a command word is spelled in nine digits, the first `op`, the next eight `data`; the spelling reads back as the word;
the example. -/
def Obligations.SpellingReadsBackAsTheWord : Prop :=
  ∀ w : CmdWord, readSpelling (spell w) = some w ∧ (spelledDigits w).length = 9 ∧
    (spelledDigits w).head? = some (opField w).toNat ∧
    (spelledDigits w).tail.foldl (fun n d => 16 * n + d) 0 = (patternField w).toNat ∧
    readSpelling "0x100000031".toList = some 0x100000031#34 ∧
    opField 0x100000031#34 = 1#2 ∧ patternField 0x100000031#34 = 0x00000031#32

/-- R96, S6: a byte operand (R47) and a signed `LZC` operand (R48) that do not fit their field are refused by name and never
truncated; those that fit are taken at their value. The first clause says the same of a number offered as a whole command word
(34 bits, R45): R96 and S6 speak of operands only, so that clause is the model's choice (log 15, DEDUCED). The last clause is
the check of a script line (R53, R54); pattern operands and message bytes by value are in
`PatternsAndMessageBytesAreRefusedNotTruncated`. -/
def Obligations.NumbersAreRefusedNotTruncated : Prop :=
  (∀ n, (n < 2 ^ 34 → ∃ w, transcribeWord n = .ok w ∧ w.toNat = n) ∧
    (2 ^ 34 ≤ n → transcribeWord n = .error .wordTooWide)) ∧
  (∀ n, (n < 2 ^ 8 → ∃ b, transcribeByte n = .ok b ∧ b.toNat = n) ∧
    (2 ^ 8 ≤ n → transcribeByte n = .error .byteOutOfRange)) ∧
  (∀ n : Int, (-(2 ^ 31) ≤ n ∧ n < 2 ^ 31 → ∃ x, transcribePattern (.signed n) = .ok x ∧ x.toInt = n) ∧
    (n < -(2 ^ 31) ∨ 2 ^ 31 ≤ n → transcribePattern (.signed n) = .error .valueOutOfRange)) ∧
  (∀ c : SourceCmd, c.wf = true ↔ ∃ is, c.expand = .ok is)

/-- R53, R54: every line of every script assembles to canonical words. -/
def Obligations.ScriptsAssembleToCanonicalWords : Prop :=
  ∀ lines words, assembleScript lines = .ok words → ∀ w ∈ words, CmdWord.isCanonical w = true

/-! ### The CRC16 Engine (40_crc16.md) -/

/-- R61, R62: the bit-step as arithmetic on numbers, and its corner cases. -/
def Obligations.BitstepIsShiftTestMaskXor : Prop :=
  (∀ (r : RegWord) (b : Bool), (r.toNat <<< 1) ||| b.toNat = 2 * r.toNat + b.toNat ∧
    (bitstep r b).toNat =
      if (r.toNat <<< 1) ||| b.toNat > 0xFFFF then (((r.toNat <<< 1) ||| b.toNat) &&& 0xFFFF) ^^^ 0x1021
      else (r.toNat <<< 1) ||| b.toNat) ∧
  bitstep 0x0000#16 false = 0x0000#16 ∧ bitstep 0x0000#16 true = 0x0001#16 ∧ bitstep 0x7FFF#16 true = 0xFFFF#16 ∧
  bitstep 0x8000#16 false = 0x1021#16 ∧ bitstep 0x8000#16 true = 0x1020#16 ∧ bitstep 0xFFFF#16 false = 0xEFDF#16 ∧
  bitstep 0xFFFF#16 true = 0xEFDE#16 ∧ bitstep 0x8810#16 true = 0x0000#16

/-- R17, R63: the overflow test is the old top bit, and the bit-step is the closed form of R63. -/
def Obligations.FeedbackIsTheOldTopBit : Prop :=
  ∀ (r : RegWord) (b : Bool),
    overflow ((r.setWidth 17 <<< 1) ||| (BitVec.ofBool b).setWidth 17) = r.getLsbD 15 ∧
    bitstep r b = bitstepClosed r b

/-- R64: the bit-step is a shift register with feedback taps at bits 12, 5 and 0. -/
def Obligations.BitstepIsShiftRegisterWithTaps : Prop :=
  ∀ (r : RegWord) (b : Bool) (i : Nat), i < 16 → (bitstep r b).getLsbD i = bitstepTap r b i

/-- R65: a byte-step is eight bit-steps, bit 7 of the byte first, and the corner cases and examples. -/
def Obligations.BytestepTakesBitSevenFirst : Prop :=
  (∀ (r : RegWord) (byte : Byte), bytestep r byte =
    bitstep (bitstep (bitstep (bitstep (bitstep (bitstep (bitstep (bitstep r
      (byte.getLsbD 7)) (byte.getLsbD 6)) (byte.getLsbD 5)) (byte.getLsbD 4)) (byte.getLsbD 3))
      (byte.getLsbD 2)) (byte.getLsbD 1)) (byte.getLsbD 0)) ∧
  (∀ b : Byte, bytestep 0x0000#16 b = b.setWidth 16) ∧
  bytestep 0xFFFF#16 0xFF#8 = 0xE10F#16 ∧ bytestep 0xFFFF#16 0x00#8 = 0xE1F0#16 ∧
  bytestep 0x0031#16 0x32#8 = 0x3132#16 ∧ bytestep 0x3132#16 0x33#8 = 0x1441#16

/-- R66: the byte-step by the printed table `T` is the byte-step, and the table holds what R66 says. -/
def Obligations.TableFormEqualsBytestep : Prop :=
  (∀ (r : RegWord) (byte : Byte), bytestep r byte = bytestepTable r byte) ∧
  crcTable.length = 256 ∧
  (∀ h : Byte, tableEntry h = bytestep (h.setWidth 16 <<< 8) 0x00#8) ∧
  tableEntry 0x12#8 = 0x3273#16 ∧ bytestep 0x1234#16 0x56#8 = 0x0625#16

/-- R67, R79: the checksum is `8 * (n + 2)` bit-steps over the bits of the extended buffer, from 0, and the check value. -/
def Obligations.ChecksumRunsOverTheExtendedBuffer : Prop :=
  (∀ p : List Byte, crc16 p = (extendedBuffer p).foldl bytestep 0x0000#16 ∧
    crc16 p = ((extendedBuffer p).flatMap messageBits).foldl bitstep 0x0000#16 ∧
    ((extendedBuffer p).flatMap messageBits).length = 8 * (p.length + 2)) ∧
  crc16 [0x31#8, 0x32#8, 0x33#8, 0x34#8, 0x35#8, 0x36#8, 0x37#8, 0x38#8, 0x39#8] = 0x31C3#16

/-- R74: the empty message and the two one-byte messages the source asks for. -/
def Obligations.ShortMessagesHaveTheDerivedChecksums : Prop :=
  crc16 [] = 0x0000#16 ∧ crc16 [0x00#8] = 0x0000#16 ∧ crc16 [0xFF#8] = 0x1EF0#16

/-- R75: leading zero bytes, however many, are invisible. -/
def Obligations.LeadingZeroBytesAreInvisible : Prop :=
  bytestep 0x0000#16 0x00#8 = 0x0000#16 ∧
  (∀ (n : Nat) (p : List Byte), crc16 (List.replicate n 0x00#8 ++ p) = crc16 p) ∧
  crc16 [0x00#8, 0x01#8] = crc16 [0x01#8] ∧ crc16 [0x01#8] = 0x1021#16

/-- R76: the bit-step, and the checksum of messages of one length, are linear over XOR; all-zero messages have checksum 0. -/
def Obligations.ChecksumIsLinear : Prop :=
  (∀ (r r' : RegWord) (b b' : Bool), bitstep (r ^^^ r') (b ^^ b') = bitstep r b ^^^ bitstep r' b') ∧
  (∀ p q : List Byte, p.length = q.length → crc16 (List.zipWith (· ^^^ ·) p q) = crc16 p ^^^ crc16 q) ∧
  (∀ n : Nat, crc16 (List.replicate n 0x00#8) = 0x0000#16)

/-- R77: a message followed by its own checksum, high byte first, has checksum zero. -/
def Obligations.MessageWithItsChecksumHasZeroResidue : Prop :=
  ∀ p : List Byte, crc16 (p ++ [(crc16 p).extractLsb' 8 8, (crc16 p).extractLsb' 0 8]) = 0x0000#16

/-- The usual form without appended bytes (R78) computes the same checksum of every message. R78 says so of every message TRIED,
by computation, and G2 marks the general claim as general knowledge with no proof given: that it holds of all messages is this
statement's own claim, not the spec's. -/
def Obligations.DirectFormEqualsChecksum : Prop :=
  ∀ p : List Byte, crc16Direct p = crc16 p

/-- Stronger than R73: flipping any one bit of any message changes its checksum. -/
def Obligations.EverySingleBitFlipChangesTheChecksum : Prop :=
  ∀ (p : List Byte) (i k : Nat), i < p.length → k < 8 →
    crc16 (p.modify i fun byte => byte ^^^ (1#8 <<< k)) ≠ crc16 p

/-! ### The Leading-Zero-Count Utility (41_lzc.md) -/

/-- R85: the count is 31 minus the position of the highest set bit, 32 when no bit is set; some bit is highest
in every other pattern. -/
def Obligations.LzcCountsZerosAboveTheHighestSetBit : Prop :=
  ∀ x : Pattern,
    (∀ i, x.getLsbD i = true → (∀ j, i < j → x.getLsbD j = false) → lzc32 x = 31 - i) ∧
    ((∀ i, x.getLsbD i = false) → lzc32 x = 32) ∧ lzc32 x ≤ 32

/-- R86: signed operands go in as two's complement; every negative one counts 0. -/
def Obligations.NegativeOperandsCountZero : Prop :=
  (∀ n : Int, ((u32 n).toNat : Int) = n % 2 ^ 32) ∧
  (∀ n : Int, -(2 ^ 31) ≤ n → n < 0 → (u32 n).getLsbD 31 = true ∧ lzc32 (u32 n) = 0) ∧
  u32 (-1) = 0xFFFFFFFF#32 ∧ lzc32 0xFFFFFFFF#32 = 0 ∧
  u32 (-2147483648) = 0x80000000#32 ∧ lzc32 0x80000000#32 = 0

/-- R93: the count by ranges of the unsigned value, its monotonicity, powers of two, and the logarithm. -/
def Obligations.LzcByRanges : Prop :=
  (∀ (x : Pattern) (k : Nat), k ≤ 31 → (lzc32 x = k ↔ 2 ^ (31 - k) ≤ x.toNat ∧ x.toNat < 2 ^ (32 - k))) ∧
  (∀ x : Pattern, lzc32 x = 32 ↔ x = 0#32) ∧
  (∀ x y : Pattern, x.toNat ≤ y.toNat → lzc32 y ≤ lzc32 x) ∧
  (∀ j, j < 32 → lzc32 (BitVec.ofNat 32 (2 ^ j)) = 31 - j) ∧
  (∀ j, j ≤ 32 → lzc32 (BitVec.ofNat 32 (2 ^ j - 1)) = 32 - j) ∧
  (∀ x : Pattern, x ≠ 0#32 → lzc32 x = 31 - Nat.log2 x.toNat)

/-- R89: the source's four test points. -/
def Obligations.LzcOfTheSourcesFourPoints : Prop :=
  lzc32 (u32 0) = 32 ∧ lzc32 (u32 1) = 31 ∧ lzc32 (u32 (-1)) = 0 ∧ lzc32 (u32 2147483647) = 1 ∧
  lzc32 0x00000000#32 = 32 ∧ lzc32 0x00000001#32 = 31 ∧ lzc32 0xFFFFFFFF#32 = 0 ∧ lzc32 0x7FFFFFFF#32 = 1

/-- R90: the priority-encoder structure gives the count's six bits. -/
def Obligations.PriorityEncoderEqualsLzc : Prop :=
  ∀ x : Pattern, (lzcPriorityBits x).toNat = lzc32 x ∧ (countResponse (lzc32 x)).extractLsb' 0 6 = lzcPriorityBits x

/-- R91: the logarithmic tree and its pair-merging form give the count. -/
def Obligations.LogarithmicTreesEqualLzc : Prop :=
  ∀ x : Pattern, lzc32Tree x = lzc32 x ∧ lzc32Merge x = lzc32 x

/-! ### The commands (R68, R69, R70, R87) -/

/-- R68: `CRC_INIT` completes in every state with `reg = 0`, nothing else changed; its words; it is idempotent. -/
def Obligations.CrcInitCompletesWithRegZero : Prop :=
  (∀ s : State, exec .crcInit s = .next { s with reg := 0x0000#16 }) ∧
  encode .crcInit = 0x000000000#34 ∧ (∀ w, opField w = 0b00#2 → decode w = .crcInit) ∧
  (∀ s t : State, exec .crcInit s = .next t → exec .crcInit t = .next t) ∧
  (∀ s : State, s.reg = 0x0000#16 → exec .crcInit s = .next s)

/-- R69: `CRC_BYTE` completes in every state with the byte-step in `reg`, nothing else changed; its words; the examples. -/
def Obligations.CrcByteCompletesWithBytestep : Prop :=
  (∀ (byte : Byte) (s : State), exec (.crcByte byte) s = .next { s with reg := bytestep s.reg byte }) ∧
  (∀ byte : Byte, encode (.crcByte byte) = 0x100000000#34 ||| byte.setWidth 34) ∧
  (∀ w, opField w = 0b01#2 → decode w = .crcByte (w.extractLsb' 0 8)) ∧
  (∀ s : State, s.reg = 0x0000#16 → exec (.crcByte 0x00#8) s = .next s) ∧
  decode 0x1FFFFFF31#34 = decode 0x100000031#34 ∧
  (∀ s : State, exec (.crcByte 0x31#8) { s with reg := 0x0000#16 } = .next { s with reg := 0x0031#16 }) ∧
  (∀ s : State, exec (.crcByte 0x32#8) { s with reg := 0x0031#16 } = .next { s with reg := 0x3132#16 }) ∧
  (∀ s : State, exec (.crcByte 0x33#8) { s with reg := 0x3132#16 } = .next { s with reg := 0x1441#16 })

/-- R70: `CRC_FINAL` completes in every state: it emits the checksum after two zero byte-steps, upper bits zero, and leaves
`reg = 0`, nothing else changed; its words; the corner cases and the example. -/
def Obligations.CrcFinalCompletesWithChecksumAndClears : Prop :=
  (∀ s : State, exec .crcFinal s = .next
    { s with reg := 0x0000#16,
             rspQueue := s.rspQueue ++ [(bytestep (bytestep s.reg 0x00#8) 0x00#8).setWidth 32] }) ∧
  encode .crcFinal = 0x200000000#34 ∧ (∀ w, opField w = 0b10#2 → decode w = .crcFinal) ∧
  (∀ s : State, s.reg = 0x0000#16 → exec .crcFinal s = .next { s with rspQueue := s.rspQueue ++ [0x00000000#32] }) ∧
  (∀ s t : State, exec .crcFinal s = .next t →
    exec .crcFinal t = .next { t with rspQueue := t.rspQueue ++ [0x00000000#32] }) ∧
  bytestep 0xBEEF#16 0x00#8 = 0xA915#16 ∧ bytestep 0xA915#16 0x00#8 = 0x31C3#16 ∧
  (∀ s : State, s.reg = 0xBEEF#16 →
    exec .crcFinal s = .next { s with reg := 0x0000#16, rspQueue := s.rspQueue ++ [0x000031C3#32] })

/-- R87: `LZC` completes in every state: it emits the count and changes nothing else, `reg` included; its words; the corner
cases and the example. -/
def Obligations.LzcCompletesWithCount : Prop :=
  (∀ (x : Pattern) (s : State), ∃ rsp : Response, rsp.toNat = lzc32 x ∧ lzc32 x ≤ 32 ∧
    (rsp.getLsbD 5 = true ↔ x = 0x00000000#32) ∧
    exec (.lzc x) s = .next { s with rspQueue := s.rspQueue ++ [rsp] }) ∧
  (∀ x : Pattern, encode (.lzc x) = 0x300000000#34 ||| x.setWidth 34) ∧
  (∀ w, opField w = 0b11#2 → decode w = .lzc (w.extractLsb' 0 32)) ∧
  (∀ s : State, exec (.lzc 0x00000000#32) s = .next { s with rspQueue := s.rspQueue ++ [0x00000020#32] }) ∧
  (∀ (x : Pattern) (s : State), x.getLsbD 31 = true →
    exec (.lzc x) s = .next { s with rspQueue := s.rspQueue ++ [0x00000000#32] }) ∧
  (∀ s : State, exec (.lzc 0x00000001#32) s = .next { s with rspQueue := s.rspQueue ++ [0x0000001F#32] })

/-- R51, R72, R88: both responses carry their value in the low bits with zeros above; only the count 32 sets bit 5. -/
def Obligations.ResponsesAreZeroExtended : Prop :=
  (∀ c : RegWord, (checksumResponse c).extractLsb' 0 16 = c ∧ (checksumResponse c).extractLsb' 16 16 = 0#16) ∧
  (∀ x : Pattern, (countResponse (lzc32 x)).toNat = lzc32 x ∧ (countResponse (lzc32 x)).extractLsb' 6 26 = 0#26 ∧
    ((countResponse (lzc32 x)).getLsbD 5 = true ↔ x = 0#32))

/-- The frame of the four commands (R15, R38, R68 to R70, R87): the host's events and the words already taken never change;
the waiting responses only grow at the end, by one word for `CRC_FINAL` and `LZC` and by none for the others; `LZC` keeps `reg`. -/
def Obligations.CommandsChangeOnlyRegAndTheEndOfTheStream : Prop :=
  ∀ (i : Instr) (s t : State), exec i s = .next t →
    t.input = s.input ∧ t.delivered = s.delivered ∧
    (∃ new : List Response, t.rspQueue = s.rspQueue ++ new ∧
      new.length = match i with | .crcInit => 0 | .crcByte _ => 0 | .crcFinal => 1 | .lzc _ => 1) ∧
    (∀ x, i = .lzc x → t.reg = s.reg)

/-- R39: `LZC` and `CRC_INIT` are idempotent; `CRC_BYTE` is not; a second `CRC_FINAL` answers `0x0000`; no command has a side
effect outside `reg` and the response stream. -/
def Obligations.WhichCommandsAreIdempotent : Prop :=
  (∀ (x : Pattern) (s t u : State), exec (.lzc x) s = .next t → exec (.lzc x) t = .next u →
    t.reg = s.reg ∧ u.reg = s.reg ∧ ∃ v, t.rspQueue = s.rspQueue ++ [v] ∧ u.rspQueue = s.rspQueue ++ [v, v]) ∧
  (∀ s t : State, exec .crcInit s = .next t → exec .crcInit t = .next t) ∧
  (∃ (byte : Byte) (s t u : State), exec (.crcByte byte) s = .next t ∧ exec (.crcByte byte) t = .next u ∧ u ≠ t) ∧
  (∀ s t u : State, exec .crcFinal s = .next t → exec .crcFinal t = .next u →
    t.rspQueue = s.rspQueue ++ [(flush s.reg).setWidth 32] ∧ t.reg = 0x0000#16 ∧
    u.rspQueue = t.rspQueue ++ [0x00000000#32]) ∧
  (∀ (i : Instr) (s t : State), exec i s = .next t → t.input = s.input ∧ t.delivered = s.delivered)

/-! ### Steps, runs, the response stream -/

/-- R49, R57: a step whose next event is an accepted word executes exactly the word's command, with that event consumed.
The second clause is about the model's own `withFetchWord` and `decodeTableWord`, and is the model's choice: how a word is
presented next (log 2, DESIGN CHOICE) and which table numbers are words (log 15, DEDUCED). -/
def Obligations.StepExecutesTheDecodedWord : Prop :=
  (∀ (s : State) (w : CmdWord) (rest : List HostEvent), s.input = .command w :: rest →
    step s = exec (decode w) { s with input := rest }) ∧
  (∀ (s : State) (nbits w : Nat) (i : Instr), decodeTableWord nbits w = some i →
    step (s.withFetchWord nbits w) = exec i s)

/-- R58, R114, and the model's choice (log 3, log 6): taking a response moves the oldest waiting one to the words taken; with
none waiting, or with no event at all, nothing changes. -/
def Obligations.StepDeliversTheOldestResponse : Prop :=
  (∀ (s : State) (v : Response) (waiting : List Response) (rest : List HostEvent),
    s.input = .takeResponse :: rest → s.rspQueue = v :: waiting →
    step s = .next { s with rspQueue := waiting, delivered := s.delivered ++ [v], input := rest }) ∧
  (∀ (s : State) (rest : List HostEvent), s.input = .takeResponse :: rest → s.rspQueue = [] →
    step s = .next { s with input := rest }) ∧
  (∀ s : State, s.input = [] → step s = .next s)

/-- R23: what reset leaves, of the block and of the reference sequencer (whose `sh` is free). -/
def Obligations.ResetStateIsAsSpecified : Prop :=
  State.reset.reg = 0x0000#16 ∧ State.reset.rspQueue = [] ∧ State.reset.stream = [] ∧
  (∀ m : Sequencer, m.afterReset.reg = 0x0000#16 ∧ m.afterReset.queue = [] ∧ m.afterReset.phase = .idle ∧
    m.afterReset.cnt = 0#5 ∧ m.afterReset.fin = false)

/-- R110, R111: reset from every state gives `reg = 0`, no waiting response and an empty stream; the host's later events are
kept (the model's choice, log 5). -/
def Obligations.ResetFromEveryState : Prop :=
  ∀ (s : State) (rest : List HostEvent), s.input = .reset :: rest →
    step s = .next { reg := 0x0000#16, rspQueue := [], delivered := [], input := rest }

/-- R95: no command fails in any state, and no run from any state ends in a fault or a refusal. -/
def Obligations.NothingEverFails : Prop :=
  (∀ (i : Instr) (s : State), ∃ t, exec i s = .next t) ∧ (∀ s : State, NeverStops s)

/-- R51, R72: every step from a state whose responses are all 16-bit numbers leads to such a state. -/
def Obligations.ResponsesFitIsKeptByEveryStep : Prop :=
  ∀ s t : State, ResponsesFit s → step s = .next t → ResponsesFit t

/-- The invariant of `ResponsesFitIsKeptByEveryStep` holds after reset. -/
def Obligations.ResponsesFitAfterReset : Prop := ResponsesFit State.reset

/-- R15: `reg` changes in a step only by a command that is no `LZC`, or by a reset. -/
def Obligations.RegChangesOnlyByCrcCommandsAndReset : Prop :=
  ∀ s t : State, step s = .next t → t.reg ≠ s.reg →
    (∃ w rest, s.input = .command w :: rest ∧ opField w ≠ 0b11#2) ∨ (∃ rest, s.input = .reset :: rest)

/-- R82, R114, R122 (and R24, R115, R116, with all bytes sent counted): whatever the host does, for however long, `reg` is the
fold of the bytes sent since `reg = 0` was last established, and the response stream is what the host's own account says is
due: for each `CRC_FINAL` the checksum of the message then open, for each `LZC` its count, in order, since the last reset. -/
def Obligations.EveryRunAnswersTheHostsAccount : Prop :=
  ∀ (events : List HostEvent) (a : Account) (s : State), a.Matches s → s.input = events →
    ∃ t, RunsTo events.length s t ∧ t.input = [] ∧ (a.afterAll events).Matches t

/-- R82: after `CRC_INIT` and the bytes of a message, with `LZC` commands anywhere among them, `reg` is the fold of the bytes
sent; the checksum is two zero byte-steps more; the fold of one and of two bytes, and of "123456789". -/
def Obligations.MidMessageRegisterIsTheFold : Prop :=
  (∀ (s : State) (bytes : List Byte) (commands : List Instr),
    commands.filter isCrcCommand = .crcInit :: bytes.map .crcByte → s.input = commandEvents commands →
    ∃ t, RunsTo commands.length s t ∧ t.reg = fold bytes) ∧
  fold [] = 0x0000#16 ∧ (∀ (q : List Byte) (b : Byte), fold (q ++ [b]) = bytestep (fold q) b) ∧
  (∀ p : List Byte, crc16 p = bytestep (bytestep (fold p) 0x00#8) 0x00#8) ∧
  (∀ a : Byte, fold [a] = a.setWidth 16) ∧ (∀ a b : Byte, fold [a, b] = (a.setWidth 16 <<< 8) ||| b.setWidth 16) ∧
  fold [0x31#8, 0x32#8, 0x33#8, 0x34#8, 0x35#8, 0x36#8, 0x37#8, 0x38#8, 0x39#8] = 0xBEEF#16

/-- R71: the pseudo-instruction `CRC16` from any state, and without its `CRC_INIT` from a state with `reg = 0`, with `LZC`
commands placed anywhere inside, answers the checksum of its bytes, ends with `reg = 0`, and adds to the stream exactly what
its commands emit. -/
def Obligations.Crc16MacroAnswersTheChecksum : Prop :=
  ∀ (s : State) (bytes : List Byte) (commands : List Instr),
    (commands.filter isCrcCommand = crc16Commands bytes ∨
      (s.reg = 0x0000#16 ∧ commands.filter isCrcCommand = bytes.map .crcByte ++ [.crcFinal])) →
    s.input = commandEvents commands →
    ∃ t, RunsTo commands.length s t ∧ t.reg = 0x0000#16 ∧
      t.stream = s.stream ++ (emissions s commands).map Prod.snd ∧
      (emissions s commands).filter (fun e => isCrcCommand e.1) = [(.crcFinal, (crc16 bytes).setWidth 32)]

/-- R92: removing every `LZC` command from a command sequence removes exactly their responses, and an `LZC` keeps the state. -/
def Obligations.RemovingLzcCommandsRemovesTheirResponses : Prop :=
  (∀ (s : State) (commands : List Instr),
    emissions s (commands.filter isCrcCommand) = (emissions s commands).filter fun e => isCrcCommand e.1) ∧
  (∀ (s : State) (x : Pattern), exec (.lzc x) s = .next (s.emit ((BitVec.ofNat 6 (lzc32 x)).setWidth 32)))

/-- R25, R20: the responses to come depend on `reg` and the commands alone: no response already emitted, taken or waiting,
and no event of the host's, influences a later one. -/
def Obligations.ResponseHistoryNeverInfluencesLaterResponses : Prop :=
  ∀ (s s' : State) (commands : List Instr), s.reg = s'.reg → emissions s commands = emissions s' commands

/-- R14: `reg` has no read port: until a `CRC_FINAL` is executed, nothing the block emits depends on it. -/
def Obligations.RegReachesNoOutputBeforeAFinal : Prop :=
  ∀ (s s' : State) (commands : List Instr), .crcFinal ∉ commands → emissions s commands = emissions s' commands

/-- R42, R8: messages sent one after the other on one block are independent, whatever the state before: each is answered with
its own checksum, in order. -/
def Obligations.MessagesInSequenceAreIndependent : Prop :=
  ∀ (s : State) (messages : List (List Byte)),
    (emissions s (messages.flatMap crc16Commands)).map Prod.snd = messages.map fun p => (crc16 p).setWidth 32

/-- R41: between resets no response is lost, duplicated or reordered: the stream after a run is the stream before it followed
by what each command emitted, in the order of the commands, and what the host has taken only grows at its end. -/
def Obligations.ResponsesComeInCommandOrderExactlyOnce : Prop :=
  ∀ (s : State) (events : List HostEvent), HostEvent.reset ∉ events → s.input = events →
    ∃ t, RunsTo events.length s t ∧
      t.stream = s.stream ++ (emissions s (events.filterMap fun e =>
        match e with | .command w => some (decode w) | .takeResponse => none | .reset => none)).map Prod.snd ∧
      s.delivered <+: t.delivered

/-! ### The reference sequencer (R120) behind the ports (R56 to R58) -/

/-- R98, R110: reset wins: a command presented at an edge with `rst` asserted is not accepted and the state after the edge
is the reset state, in which `cmd_ready` is 1 and `rsp_valid` is 0. -/
def Obligations.ResetWinsAtAnEdge : Prop :=
  ∀ (m : Sequencer) (p : Ports), p.rst = true → m.accepts p = false ∧ m.edge p = m.afterReset ∧
    (m.edge p).cmdReady = true ∧ (m.edge p).rspValid = false

/-- R57: a word presented while `cmd_ready` is 0 has no effect: the edge is as if no word had been presented. -/
def Obligations.UnacceptedWordsHaveNoEffect : Prop :=
  ∀ (m : Sequencer) (p : Ports) (w : CmdWord) (valid : Bool), m.accepts p = false →
    m.accepts { p with cmd := w, cmdValid := valid } = false →
    m.edge { p with cmd := w, cmdValid := valid } = m.edge p

/-- R58: a response that is presented and not taken stays as it is at the next edge, unless reset; a response taken is
gone, so that it is delivered once, and those behind it keep their order. -/
def Obligations.PresentedResponseIsStableUntilTaken : Prop :=
  ∀ (m : Sequencer) (p : Ports) (v : Response) (waiting : List Response), p.rst = false → m.queue = v :: waiting →
    (p.rspReady = false → (m.edge p).rspValid = true ∧ (m.edge p).rsp = some v) ∧
    (p.rspReady = true → m.deliveredWord p = [v] ∧ waiting <+: (m.edge p).queue ∧
      (m.edge p).queue.length ≤ waiting.length + 1)

/-- R117, R120, R22: every edge keeps the sequencer legal: bit-steps left 0 .. 16 as its phase says, `sh = 0` throughout a
`CRC_FINAL`, never more than `RSP_DEPTH` responses. -/
def Obligations.SequencerStaysLegal : Prop :=
  ∀ (m : Sequencer) (p : Ports), m.Legal → (m.edge p).Legal

/-- The invariant of `SequencerStaysLegal` holds after reset, whatever the state before it. -/
def Obligations.SequencerLegalAfterReset : Prop := ∀ m : Sequencer, m.afterReset.Legal

/-- R119, R120: the sequencer's cycle counts and values. `CRC_INIT` and `LZC` are done at the edge that accepts them;
`CRC_BYTE` takes exactly 8 edges more, then `reg` is the byte-step; `CRC_FINAL` exactly 16 more, then `reg = 0` and the
checksum is the last response in the queue. -/
def Obligations.SequencerTakesEightAndSixteenCycles : Prop :=
  ∀ (m : Sequencer) (p : Ports), m.accepts p = true →
    (decode p.cmd = .crcInit → (m.edge p).phase = .idle ∧ (m.edge p).reg = 0x0000#16) ∧
    (∀ x, decode p.cmd = .lzc x → (m.edge p).phase = .idle ∧ (m.edge p).reg = m.reg ∧
      (m.edge p).queue.getLast? = some (countResponse (lzc32 x))) ∧
    (∀ (byte : Byte) (ports : List Ports), decode p.cmd = .crcByte byte → ports.length = 8 →
      (∀ q ∈ ports, q.rst = false) →
      (∀ k, k < 8 → (m.edges (p :: ports.take k)).cmdReady = false) ∧
      (m.edges (p :: ports)).phase = .idle ∧ (m.edges (p :: ports)).reg = bytestep m.reg byte) ∧
    (∀ ports : List Ports, decode p.cmd = .crcFinal → ports.length = 16 → (∀ q ∈ ports, q.rst = false) →
      (∀ k, k < 16 → (m.edges (p :: ports.take k)).cmdReady = false) ∧
      (m.edges (p :: ports)).phase = .idle ∧ (m.edges (p :: ports)).reg = 0x0000#16 ∧
      (m.edges (p :: ports)).queue.getLast? = some ((flush m.reg).setWidth 32))

/-- R120, R22: the sequencer refines the block. Whatever the ports are given, resets and untaken responses included, from a
reset of any sequencer: the commands accepted, responses taken and resets, run on the block from its reset state, give
exactly the words taken at `rsp` since the last reset; and whenever the sequencer is idle, its `reg` and its waiting
responses are the block's. The order of the events of one edge (a response taken first, then the reset or the accepted word; a
response enqueued at an edge presented only after it) is the model's choice (log 12, DEDUCED), and `rst` is read as log 13
(DESIGN CHOICE) says. -/
def Obligations.SequencerRefinesTheCommands : Prop :=
  ∀ (m : Sequencer) (ports : List Ports), ∃ t : State,
    RunsTo ((Observation.start m).afterAll ports).events.length
      { State.reset with input := ((Observation.start m).afterAll ports).events } t ∧
    t.input = [] ∧ t.delivered = ((Observation.start m).afterAll ports).taken ∧
    ((Observation.start m).afterAll ports).machine.queue <+: t.rspQueue ∧
    (((Observation.start m).afterAll ports).machine.phase = .idle →
      t.reg = ((Observation.start m).afterAll ports).machine.reg ∧
      t.rspQueue = ((Observation.start m).afterAll ports).machine.queue)

/-- R121, with the host's duty of R122 as hypothesis: from every legal state, if the host takes every response and does
not reset, `cmd_ready` is 1 at some point of any 17 edges. -/
def Obligations.ReadyAgainWithinSeventeenEdges : Prop :=
  ∀ (m : Sequencer) (ports : List Ports), m.Legal → ports.length = 17 →
    (∀ p ∈ ports, p.rst = false ∧ p.rspReady = true) →
    ∃ k, k ≤ 17 ∧ (m.edges (ports.take k)).cmdReady = true

/-- R117: a host that never takes a response can wait for ever: with `RSP_DEPTH` responses held, no edge without `rsp_ready`
and `rst` accepts anything, and nothing changes. -/
def Obligations.FullQueueStallsUntilAResponseIsTaken : Prop :=
  ∀ (m : Sequencer) (ports : List Ports), m.Legal → m.queue.length = Config.rspDepth →
    (∀ p ∈ ports, p.rst = false ∧ p.rspReady = false) →
    (m.edges ports).cmdReady = false ∧ m.edges ports = m

/-! ### The other operands of a script line -/

/-- R96, S6, R53, R54: an `LZC` operand written as a pattern and the bytes of a `CRC16` message are refused by name when one does
not fit and never truncated; those that fit are taken at their values, in order, none added or dropped. -/
def Obligations.PatternsAndMessageBytesAreRefusedNotTruncated : Prop :=
  (∀ n, (n < 2 ^ 32 → ∃ x, transcribePattern (.pattern n) = .ok x ∧ x.toNat = n) ∧
    (2 ^ 32 ≤ n → transcribePattern (.pattern n) = .error .valueOutOfRange)) ∧
  (∀ ns : List Nat, (∀ n ∈ ns, n < 2 ^ 8) → ∃ bytes, (SourceCmd.crc16 ns).expand = .ok (crc16Commands bytes) ∧
    bytes.map BitVec.toNat = ns) ∧
  (∀ ns : List Nat, (∃ n ∈ ns, 2 ^ 8 ≤ n) → (SourceCmd.crc16 ns).expand = .error .byteOutOfRange)
end

