-- ==== Sys2Proof/Laws/Decode.lean ====
section
/-! SUPPORT. The decoder by opcode: one lemma per value of `op`; callers cite these and do not unfold it. -/

namespace Sys2Proof

theorem decode_of_op_crcInit {w : CmdWord} (h : opField w = 0b00#2) : decode w = .crcInit := by
  simp [decode, h]

theorem decode_of_op_crcByte {w : CmdWord} (h : opField w = 0b01#2) : decode w = .crcByte (byteField w) := by
  simp [decode, h]

theorem decode_of_op_crcFinal {w : CmdWord} (h : opField w = 0b10#2) : decode w = .crcFinal := by
  simp [decode, h]

theorem decode_of_op_lzc {w : CmdWord} (h : opField w = 0b11#2) : decode w = .lzc (patternField w) := by
  simp [decode, h]

/-- The four values of `op` (R49). -/
theorem op_cases (op : BitVec 2) : op = 0b00#2 ∨ op = 0b01#2 ∨ op = 0b10#2 ∨ op = 0b11#2 := by
  revert op; decide

/-- A bit of an assembled word (R45). -/
theorem getLsbD_assemble (op : BitVec 2) (data : BitVec 32) (i : Nat) :
    (assemble op data).getLsbD i = if i < 32 then data.getLsbD i else op.getLsbD (i - 32) := by
  unfold assemble
  exact BitVec.getLsbD_append.trans (by by_cases h : i < 32 <;> simp [h])

/-- The fields of an assembled word are what it was assembled from (R45). -/
theorem opField_assemble (op : BitVec 2) (data : BitVec 32) : opField (assemble op data) = op := by
  apply BitVec.eq_of_getLsbD_eq
  intro i hi
  simp [opField, getLsbD_assemble, hi]

theorem patternField_assemble (op : BitVec 2) (data : BitVec 32) : patternField (assemble op data) = data := by
  apply BitVec.eq_of_getLsbD_eq
  intro i hi
  simp [patternField, getLsbD_assemble, hi]

theorem byteField_assemble (op : BitVec 2) (data : BitVec 32) :
    byteField (assemble op data) = data.extractLsb' 0 8 := by
  apply BitVec.eq_of_getLsbD_eq
  intro i hi
  simp [byteField, getLsbD_assemble, hi, show i < 32 by omega]

end Sys2Proof
end

