-- ==== Sys2Proof/Laws/State.lean ====
section
/-! SUPPORT. One lemma per field per operation on `State`, and what each operation does to the response stream. -/

namespace Sys2Proof.Machine

/-! ### `writeReg` -/

@[simp] theorem State.writeReg_reg (s : State) (v : RegWord) : (s.writeReg v).reg = v := rfl
@[simp] theorem State.writeReg_rspQueue (s : State) (v : RegWord) : (s.writeReg v).rspQueue = s.rspQueue := rfl
@[simp] theorem State.writeReg_delivered (s : State) (v : RegWord) : (s.writeReg v).delivered = s.delivered := rfl
@[simp] theorem State.writeReg_input (s : State) (v : RegWord) : (s.writeReg v).input = s.input := rfl
@[simp] theorem State.writeReg_stream (s : State) (v : RegWord) : (s.writeReg v).stream = s.stream := rfl

/-! ### `emit` -/

@[simp] theorem State.emit_reg (s : State) (v : Response) : (s.emit v).reg = s.reg := rfl
@[simp] theorem State.emit_rspQueue (s : State) (v : Response) : (s.emit v).rspQueue = s.rspQueue ++ [v] := rfl
@[simp] theorem State.emit_delivered (s : State) (v : Response) : (s.emit v).delivered = s.delivered := rfl
@[simp] theorem State.emit_input (s : State) (v : Response) : (s.emit v).input = s.input := rfl
@[simp] theorem State.emit_stream (s : State) (v : Response) : (s.emit v).stream = s.stream ++ [v] :=
  (List.append_assoc _ _ _).symm

/-! ### `deliver`: the stream is the same stream, one word more of it taken -/

@[simp] theorem State.deliver_reg (s : State) : s.deliver.reg = s.reg := by
  unfold State.deliver; split <;> rfl

@[simp] theorem State.deliver_input (s : State) : s.deliver.input = s.input := by
  unfold State.deliver; split <;> rfl

theorem State.deliver_of_empty {s : State} (h : s.rspQueue = []) : s.deliver = s := by
  unfold State.deliver; rw [h]

theorem State.deliver_of_waiting {s : State} {v : Response} {rest : List Response} (h : s.rspQueue = v :: rest) :
    s.deliver = { s with rspQueue := rest, delivered := s.delivered ++ [v] } := by
  unfold State.deliver; rw [h]

@[simp] theorem State.deliver_stream (s : State) : s.deliver.stream = s.stream := by
  cases h : s.rspQueue with
  | nil => rw [State.deliver_of_empty h]
  | cons v rest => simp [State.deliver_of_waiting h, State.stream, h]

theorem State.delivered_isPrefix_deliver (s : State) : s.delivered <+: s.deliver.delivered := by
  cases h : s.rspQueue with
  | nil => rw [State.deliver_of_empty h]
  | cons v rest => rw [State.deliver_of_waiting h]; exact List.prefix_append _ _

/-! ### `applyReset`, `present`, `reset` -/

@[simp] theorem State.applyReset_reg (s : State) : s.applyReset.reg = Config.regInit := rfl
@[simp] theorem State.applyReset_rspQueue (s : State) : s.applyReset.rspQueue = [] := rfl
@[simp] theorem State.applyReset_delivered (s : State) : s.applyReset.delivered = [] := rfl
@[simp] theorem State.applyReset_input (s : State) : s.applyReset.input = s.input := rfl
@[simp] theorem State.applyReset_stream (s : State) : s.applyReset.stream = [] := rfl

@[simp] theorem State.present_reg (s : State) (w : CmdWord) : (s.present w).reg = s.reg := rfl
@[simp] theorem State.present_rspQueue (s : State) (w : CmdWord) : (s.present w).rspQueue = s.rspQueue := rfl
@[simp] theorem State.present_delivered (s : State) (w : CmdWord) : (s.present w).delivered = s.delivered := rfl
@[simp] theorem State.present_input (s : State) (w : CmdWord) : (s.present w).input = .command w :: s.input := rfl
@[simp] theorem State.present_stream (s : State) (w : CmdWord) : (s.present w).stream = s.stream := rfl

@[simp] theorem State.reset_reg : State.reset.reg = Config.regInit := rfl
@[simp] theorem State.reset_input : State.reset.input = [] := rfl
@[simp] theorem State.reset_stream : State.reset.stream = [] := rfl

/-- Emptying the host's list of events before a command leaves the stream alone. -/
@[simp] theorem State.stream_with_input (s : State) (events : List HostEvent) :
    ({ s with input := events } : State).stream = s.stream := rfl

end Sys2Proof.Machine
end

