-- ==== Sys2Proof/Laws/Ops.lean ====
section
/-! SUPPORT. What the functions of the two units are in terms of one another; callers cite these and do not unfold them. -/

namespace Sys2Proof.Machine

/-- The message bits of a byte, written out (R33). -/
theorem messageBits_eq (byte : Byte) : messageBits byte =
    [byte.getLsbD 7, byte.getLsbD 6, byte.getLsbD 5, byte.getLsbD 4,
     byte.getLsbD 3, byte.getLsbD 2, byte.getLsbD 1, byte.getLsbD 0] := rfl

@[simp] theorem messageBits_length (byte : Byte) : (messageBits byte).length = 8 := rfl

/-- The two zero byte-steps written out (R70). -/
theorem flush_eq (r : RegWord) : flush r = bytestep (bytestep r 0x00#8) 0x00#8 := rfl

@[simp] theorem fold_nil : fold [] = Config.regInit := rfl

/-- R82: a byte more is a byte-step more. -/
@[simp] theorem fold_append_byte (p : List Byte) (byte : Byte) : fold (p ++ [byte]) = bytestep (fold p) byte := by
  simp [fold]

theorem fold_append (p q : List Byte) : fold (p ++ q) = q.foldl bytestep (fold p) := by
  simp [fold]

/-- R67, R82: the checksum is the fold of the message, flushed. -/
theorem crc16_eq_flush_fold (p : List Byte) : crc16 p = flush (fold p) := rfl

/-- R67: the checksum is the fold of the extended buffer. -/
theorem crc16_eq_fold_extended (p : List Byte) : crc16 p = fold (extendedBuffer p) := by
  rw [extendedBuffer, fold_append]; rfl

/-- One turn of the loop of R85. -/
theorem lzcFrom_succ (x : Pattern) (i : Nat) :
    lzcFrom x (i + 1) = if x.getLsbD i then 31 - i else lzcFrom x i := rfl

/-- With no set bit among the bits left to look at, the loop runs to its end (R85). -/
theorem lzcFrom_of_clear (x : Pattern) (n : Nat) (h : ∀ i, i < n → x.getLsbD i = false) : lzcFrom x n = 32 := by
  induction n with
  | zero => rfl
  | succ n ih =>
    rw [lzcFrom_succ, h n n.lt_succ_self]
    exact ih fun i hi => h i (Nat.lt_succ_of_lt hi)

/-- The loop stops at the first set bit it meets (R85). -/
theorem lzcFrom_of_highest (x : Pattern) {n i : Nat} (hin : i < n) (hi : x.getLsbD i = true)
    (above : ∀ j, i < j → j < n → x.getLsbD j = false) : lzcFrom x n = 31 - i := by
  induction n with
  | zero => omega
  | succ n ih =>
    rw [lzcFrom_succ]
    by_cases h : i = n
    · subst h; rw [hi]; rfl
    · rw [above n (by omega) n.lt_succ_self]
      exact ih (by omega) fun j hj hjn => above j hj (by omega)

end Sys2Proof.Machine
end

