-- ==== Sys2Proof/Laws/PerInstr.lean ====
section
/-! SUPPORT. Statements about every command as a term, one lemma per constructor. -/

namespace Sys2Proof.Laws.CanonicalEncoding

/-- The word a command is encoded to has the command's opcode row and no reserved bit set (R50). -/
def Statement (i : Instr) : Prop :=
  CmdWord.isCanonical (encode i) = true ∧ (opcodeTable.filter fun r => r.hits (encode i)).map (·.mnemonic) = [i.mnemonic]

theorem crcInit : Statement .crcInit := by unfold Statement; decide

theorem crcByte (byte : Byte) : Statement (.crcByte byte) := by
  unfold Statement; revert byte; decide +kernel

theorem crcFinal : Statement .crcFinal := by unfold Statement; decide

theorem lzc (x : Pattern) : Statement (.lzc x) := by
  have op : (encode (.lzc x)).extractLsb' 32 2 = 0b11#2 := opField_assemble _ _
  have masked : encode (.lzc x) &&& 0x300000000#34 = 0x300000000#34 := by
    apply BitVec.eq_of_getLsbD_eq
    intro i hi
    have high : ∀ i, i < 34 → (0x300000000#34).getLsbD i = decide (32 ≤ i) := by decide
    rw [BitVec.getLsbD_and, high i hi, encode, getLsbD_assemble]
    by_cases h : i < 32
    · simp [show ¬ 32 ≤ i by omega]
    · have : i = 32 ∨ i = 33 := by omega
      rcases this with rfl | rfl <;> simp
  constructor
  · have all : usedBits 0b11#2 = BitVec.allOnes 34 := by decide
    rw [CmdWord.isCanonical, op, all, BitVec.and_allOnes]
    exact beq_self_eq_true _
  · simp [opcodeTable, OpcodeRow.hits, masked, Instr.mnemonic]

end Sys2Proof.Laws.CanonicalEncoding
end

