-- ==== Sys2Proof/Laws/Sequencer.lean ====
section
/-! SUPPORT. What one edge of the reference sequencer does, by case; callers cite these and do not unfold `Sequencer.edge`. -/

namespace Sys2Proof.Machine

/-- The sequencer once the word delivered at an edge, if any, is gone. -/
def Sequencer.taken (m : Sequencer) (p : Ports) : Sequencer := if m.delivers p then m.dequeue else m

@[simp] theorem Sequencer.taken_reg (m : Sequencer) (p : Ports) : (m.taken p).reg = m.reg := by
  unfold Sequencer.taken; split <;> rfl
@[simp] theorem Sequencer.taken_sh (m : Sequencer) (p : Ports) : (m.taken p).sh = m.sh := by
  unfold Sequencer.taken; split <;> rfl
@[simp] theorem Sequencer.taken_cnt (m : Sequencer) (p : Ports) : (m.taken p).cnt = m.cnt := by
  unfold Sequencer.taken; split <;> rfl
@[simp] theorem Sequencer.taken_fin (m : Sequencer) (p : Ports) : (m.taken p).fin = m.fin := by
  unfold Sequencer.taken; split <;> rfl
@[simp] theorem Sequencer.taken_phase (m : Sequencer) (p : Ports) : (m.taken p).phase = m.phase := by
  unfold Sequencer.taken; split <;> rfl

/-- The words delivered and the words left are the words there were, in order (R58). -/
theorem Sequencer.deliveredWord_append_taken (m : Sequencer) (p : Ports) :
    m.deliveredWord p ++ (m.taken p).queue = m.queue := by
  unfold Sequencer.deliveredWord Sequencer.taken
  split
  · rename_i h
    cases hq : m.queue with
    | nil => simp [Sequencer.delivers, Sequencer.rspValid, hq] at h
    | cons v rest => simp [Sequencer.rsp, Sequencer.dequeue, hq]
  · rfl

/-- An edge without reset, in `IDLE` (R57, R58). -/
theorem Sequencer.edge_of_idle {m : Sequencer} {p : Ports} (hr : p.rst = false) (hp : m.phase = .idle) :
    m.edge p = if m.accepts p then (m.taken p).accept (decode p.cmd) else m.taken p := by
  simp [Sequencer.edge, hr, hp, Sequencer.taken]

/-- An edge without reset, in `SHIFT` (R58, R120). -/
theorem Sequencer.edge_of_shift {m : Sequencer} {p : Ports} (hr : p.rst = false) (hp : m.phase = .shift) :
    m.edge p = (m.taken p).shiftCycle := by
  simp [Sequencer.edge, hr, hp, Sequencer.taken]

/-- A command is accepted only in `IDLE`, without reset, with room in the queue (R57, R120). -/
theorem Sequencer.accepts_cases {m : Sequencer} {p : Ports} (h : m.accepts p = true) :
    p.rst = false ∧ p.cmdValid = true ∧ m.phase = .idle ∧ m.queue.length < Config.rspDepth := by
  simpa [Sequencer.accepts, Sequencer.cmdReady] using h

/-- A cycle of work that is not the last (R120). -/
theorem Sequencer.shiftCycle_of_more {m : Sequencer} (h : m.cnt ≠ 1#5) : m.shiftCycle =
    { m with reg := bitstep m.reg (m.sh.getLsbD 7), sh := m.sh <<< 1, cnt := m.cnt - 1#5 } := by
  simp [Sequencer.shiftCycle, h]

/-- The last cycle of a byte (R120). -/
theorem Sequencer.shiftCycle_of_last_byte {m : Sequencer} (h : m.cnt = 1#5) (hf : m.fin = false) : m.shiftCycle =
    { m with reg := bitstep m.reg (m.sh.getLsbD 7), sh := m.sh <<< 1, cnt := 0#5, phase := .idle } := by
  simp [Sequencer.shiftCycle, h, hf]

/-- The last cycle of a final (R120). -/
theorem Sequencer.shiftCycle_of_last_final {m : Sequencer} (h : m.cnt = 1#5) (hf : m.fin = true) : m.shiftCycle =
    { m with reg := Config.regInit, sh := m.sh <<< 1, cnt := 0#5, phase := .idle,
             queue := m.queue ++ [checksumResponse (bitstep m.reg (m.sh.getLsbD 7))] } := by
  simp [Sequencer.shiftCycle, h, hf, Sequencer.enqueue]

end Sys2Proof.Machine
end

