-- ==== Sys2Proof/Laws/Step.lean ====
section
/-! SUPPORT. What `exec` and `step` answer, said once: every command and every event has one next state, named by a plain
function; runs are iterations of it. -/

namespace Sys2Proof.Machine

/-- The state a command leads to. -/
def after (i : Instr) (s : State) : State :=
  match i with
  | .crcInit => s.writeReg Config.regInit
  | .crcByte byte => s.writeReg (bytestep s.reg byte)
  | .crcFinal => (s.emit (checksumResponse (flush s.reg))).writeReg Config.regInit
  | .lzc x => s.emit (countResponse (lzc32 x))

/-- Inversion of `exec`: it answers next, and only this state (R49). -/
theorem exec_eq_after (i : Instr) (s : State) : exec i s = .next (after i s) := by
  cases i <;> rfl

@[simp] theorem after_input (i : Instr) (s : State) : (after i s).input = s.input := by
  cases i <;> rfl

@[simp] theorem after_delivered (i : Instr) (s : State) : (after i s).delivered = s.delivered := by
  cases i <;> rfl

/-- What a command adds to the response stream: at most one word (R49). -/
def emitted (i : Instr) (s : State) : List Response :=
  match i with
  | .crcInit => []
  | .crcByte _ => []
  | .crcFinal => [checksumResponse (flush s.reg)]
  | .lzc x => [countResponse (lzc32 x)]

theorem after_rspQueue (i : Instr) (s : State) : (after i s).rspQueue = s.rspQueue ++ emitted i s := by
  cases i <;> simp [after, emitted]

theorem after_stream (i : Instr) (s : State) : (after i s).stream = s.stream ++ emitted i s := by
  simp [State.stream, after_rspQueue]

/-- Of the state before, a command's effect on `reg` and its response depend on `reg` alone (R20, R25). -/
theorem after_reg_congr (i : Instr) {s s' : State} (h : s.reg = s'.reg) : (after i s).reg = (after i s').reg := by
  cases i <;> simp [after, h]

theorem emitted_congr (i : Instr) {s s' : State} (h : s.reg = s'.reg) : emitted i s = emitted i s' := by
  cases i <;> simp [emitted, h]

@[simp] theorem emissions_nil (s : State) : emissions s [] = [] := rfl

/-- The emissions of a list of commands: the first command's, then the others' from the state it leads to. -/
theorem emissions_cons (s : State) (i : Instr) (rest : List Instr) :
    emissions s (i :: rest) = (emitted i s).map (fun v => (i, v)) ++ emissions (after i s) rest := by
  simp [emissions, exec_eq_after, after_stream]

/-- The state the next event leads to. -/
def following (s : State) : State :=
  match s.input with
  | [] => s
  | .command w :: rest => after (decode w) { s with input := rest }
  | .takeResponse :: rest => State.deliver { s with input := rest }
  | .reset :: rest => State.applyReset { s with input := rest }

/-- Inversion of `step`: it answers next, and only this state. -/
theorem step_eq_following (s : State) : step s = .next (following s) := by
  unfold step following
  split <;> simp_all [exec_eq_after]

/-- A run of one step and then `n` more. -/
theorem runsTo_succ {n : Nat} {s t : State} : RunsTo (n + 1) s t ↔ RunsTo n (following s) t := by
  have h : core.step s = .next (following s) := step_eq_following s
  simp only [RunsTo, Host.Core.run]
  rw [h]

@[simp] theorem runsTo_zero {s t : State} : RunsTo 0 s t ↔ s = t := by
  show Host.Outcome.next s = .next t ↔ _
  exact ⟨fun h => Host.Outcome.next.inj h, fun h => h ▸ rfl⟩

/-- Every run reaches a state, for any number of steps (R121). -/
theorem exists_runsTo (n : Nat) (s : State) : ∃ t, RunsTo n s t := by
  induction n generalizing s with
  | zero => exact ⟨s, runsTo_zero.2 rfl⟩
  | succ n ih => exact (ih (following s)).imp fun _ => runsTo_succ.2

end Sys2Proof.Machine
end

