-- ==== Sys2Proof/Tests/Slice0.lean ====
section
/-! SUPPORT. Tests on the spec's own vectors (95_test_vectors.md and the examples of the rules), the checks of WellFormed.lean
on ill-formed terms, and, for each obligation with hypotheses, a state and operands that meet them together. -/

namespace Sys2Proof.Tests
open Sys2Proof.Machine

/-! ### Decoding: words written from the encodings of R45 to R50 -/

/-- `op = 00`, all 32 reserved bits 0, or not (E1, E2). -/
theorem test_decode_crcInit :
    decode 0b00_00000000000000000000000000000000#34 = .crcInit ∧ decode 0b00_11011110101011011011111011101111#34 = .crcInit := by
  decide

/-- `op = 01`, `byte = 0x31` in bits 7:0, reserved bits 31:8 zero or not (E3, E4). -/
theorem test_decode_crcByte :
    decode 0b01_000000000000000000000000_00110001#34 = .crcByte 0x31#8 ∧
    decode 0b01_111111111111111111111111_00110001#34 = .crcByte 0x31#8 := by decide

/-- `op = 10` (E6, E8). -/
theorem test_decode_crcFinal :
    decode 0b10_00000000000000000000000000000000#34 = .crcFinal ∧ decode 0b10_11111111111111111111111111111111#34 = .crcFinal := by
  decide

/-- `op = 11`, bit 31 of the operand is bit 31 of the word (L2, L5). -/
theorem test_decode_lzc :
    decode 0b11_00000000000000000000000000000001#34 = .lzc 0x00000001#32 ∧
    decode 0b11_10000000000000000000000000000000#34 = .lzc 0x80000000#32 := by decide

/-- Canonical words of R68, R69, R70, R87. -/
theorem test_encode_canonical_words :
    encode .crcInit = 0x000000000#34 ∧ encode (.crcByte 0x31#8) = 0x100000031#34 ∧ encode .crcFinal = 0x200000000#34 ∧
    encode (.lzc 0x12345678#32) = 0x312345678#34 := by decide

/-- The table's numbering: 34 bits, or 40 in whole bytes; a number with a bit above bit 33 is no word (S6). -/
theorem test_decodeTableWord :
    decodeTableWord 40 0x100000033 = some (.crcByte 0x33#8) ∧ decodeTableWord 34 0x3FFFFFFFF = some (.lzc 0xFFFFFFFF#32) ∧
    decodeTableWord 40 0x400000000 = none := by decide

/-- R46: `0x100000031` is `op = 1`, `data = 0x00000031`. -/
theorem test_spell : spell 0x100000031#34 = "0x100000031".toList := by decide

/-! ### WellFormed: an ill-formed term for each check -/

theorem test_wf_refuses_byte_256 : (SourceCmd.crcByte 256).wf = false ∧ (SourceCmd.crcByte 255).wf = true := by decide

theorem test_wf_refuses_pattern_of_33_bits :
    (SourceCmd.lzc (.pattern 0x100000000)).wf = false ∧ (SourceCmd.lzc (.pattern 0xFFFFFFFF)).wf = true := by decide

theorem test_wf_refuses_signed_out_of_range :
    (SourceCmd.lzc (.signed 2147483648)).wf = false ∧ (SourceCmd.lzc (.signed (-2147483649))).wf = false ∧
    (SourceCmd.lzc (.signed (-2147483648))).wf = true := by decide

theorem test_wf_refuses_message_with_a_wide_byte :
    (SourceCmd.crc16 [0x31, 0x100]).wf = false ∧ (SourceCmd.crc16 []).wf = true := by decide

/-- E2, E4, E8 are not canonical; E1, E3, E6 are. -/
theorem test_isCanonical :
    CmdWord.isCanonical 0x0DEADBEEF#34 = false ∧ CmdWord.isCanonical 0x1FFFFFF31#34 = false ∧
    CmdWord.isCanonical 0x2FFFFFFFF#34 = false ∧ CmdWord.isCanonical 0x000000000#34 = true ∧
    CmdWord.isCanonical 0x100000031#34 = true ∧ CmdWord.isCanonical 0x200000000#34 = true := by decide

theorem test_crcInit_wf : Instr.crcInit.wf = true := by decide

/-! ### The functions, on the spec's vectors -/

/-- B1 to B10. -/
theorem test_bitstep_vectors :
    bitstep 0x0000#16 false = 0x0000#16 ∧ bitstep 0x0000#16 true = 0x0001#16 ∧ bitstep 0x7FFF#16 false = 0xFFFE#16 ∧
    bitstep 0x7FFF#16 true = 0xFFFF#16 ∧ bitstep 0x8000#16 false = 0x1021#16 ∧ bitstep 0x8000#16 true = 0x1020#16 ∧
    bitstep 0xFFFF#16 false = 0xEFDF#16 ∧ bitstep 0xFFFF#16 true = 0xEFDE#16 ∧ bitstep 0x0810#16 false = 0x1020#16 ∧
    bitstep 0x8810#16 true = 0x0000#16 := by decide

/-- Y3, Y4, Y6, Y8, Y9, Y12. -/
theorem test_bytestep_vectors :
    bytestep 0x0031#16 0x32#8 = 0x3132#16 ∧ bytestep 0x3132#16 0x33#8 = 0x1441#16 ∧ bytestep 0xFF00#16 0x00#8 = 0x1EF0#16 ∧
    bytestep 0x8000#16 0x00#8 = 0x9188#16 ∧ bytestep 0x1234#16 0x56#8 = 0x0625#16 ∧ bytestep 0xFFFF#16 0xFF#8 = 0xE10F#16 := by
  decide +kernel

/-- V1, the source's primary vector; the wrong variants W1 to W7 give other values. -/
theorem test_crc16_check_value :
    crc16 [0x31#8, 0x32#8, 0x33#8, 0x34#8, 0x35#8, 0x36#8, 0x37#8, 0x38#8, 0x39#8] = 0x31C3#16 := by decide +kernel

/-- V4, V10, V13, V14, V22. -/
theorem test_crc16_vectors :
    crc16 [0xFF#8] = 0x1EF0#16 ∧ crc16 [0x61#8, 0x62#8, 0x63#8] = 0x9DD6#16 ∧ crc16 [0x01#8, 0x00#8] = 0x3331#16 ∧
    crc16 [0xFF#8, 0xFF#8] = 0x1D0F#16 ∧ crc16 [0x01#8, 0x10#8, 0x21#8] = 0x0000#16 := by decide +kernel

/-- L1 to L5, L9 to L13, L18. -/
theorem test_lzc32_vectors :
    lzc32 0x00000000#32 = 32 ∧ lzc32 0x00000001#32 = 31 ∧ lzc32 0xFFFFFFFF#32 = 0 ∧ lzc32 0x7FFFFFFF#32 = 1 ∧
    lzc32 0x80000000#32 = 0 ∧ lzc32 0x0000FFFF#32 = 16 ∧ lzc32 0x00010000#32 = 15 ∧ lzc32 0x00008000#32 = 16 ∧
    lzc32 0x00FF0000#32 = 8 ∧ lzc32 0x12345678#32 = 3 ∧ lzc32 0x000031C3#32 = 18 := by decide

/-- The structures of R66, R78, R91 on V1, Y9 and L13. -/
theorem test_structures :
    bytestepTable 0x1234#16 0x56#8 = 0x0625#16 ∧ crc16Direct [0x61#8, 0x62#8, 0x63#8] = 0x9DD6#16 ∧
    lzc32Tree 0x12345678#32 = 3 ∧ lzc32Merge 0x12345678#32 = 3 ∧ lzcPriorityBits 0x12345678#32 = 3#6 := by decide +kernel

/-! ### One step of each command (E1, E3, E5, E6, E7, E11, E12) -/

/-- A state with the given register, one response waiting and one word about to be accepted. -/
def withCommand (reg : RegWord) (word : CmdWord) : State :=
  { reg := reg, rspQueue := [0xAAAAAAAA#32], delivered := [], input := [.command word] }

/-- The register and the waiting responses after a step. -/
def outcome (s : State) : Option (RegWord × List Response) :=
  match step s with
  | .next t => some (t.reg, t.rspQueue)
  | .fault _ => none
  | .refused _ => none

theorem test_step_crcInit : outcome (withCommand 0x3132#16 0x0DEADBEEF#34) = some (0x0000#16, [0xAAAAAAAA#32]) := by decide

theorem test_step_crcByte : outcome (withCommand 0x3132#16 0x100000033#34) = some (0x1441#16, [0xAAAAAAAA#32]) := by decide +kernel

theorem test_step_crcByte_reserved_bits :
    outcome (withCommand 0x0000#16 0x1FFFFFF31#34) = some (0x0031#16, [0xAAAAAAAA#32]) := by decide +kernel

theorem test_step_crcFinal :
    outcome (withCommand 0xBEEF#16 0x200000000#34) = some (0x0000#16, [0xAAAAAAAA#32, 0x000031C3#32]) := by decide +kernel

theorem test_step_crcFinal_all_ones :
    outcome (withCommand 0xFFFF#16 0x200000000#34) = some (0x0000#16, [0xAAAAAAAA#32, 0x00001D0F#32]) := by decide +kernel

theorem test_step_lzc : outcome (withCommand 0xBEEF#16 0x300000001#34) = some (0xBEEF#16, [0xAAAAAAAA#32, 0x0000001F#32]) := by
  decide

theorem test_step_lzc_zero :
    outcome (withCommand 0x0000#16 0x300000000#34) = some (0x0000#16, [0xAAAAAAAA#32, 0x00000020#32]) := by decide

/-- The host's placing of a word: the first instruction after reset. -/
theorem test_withFetchWord : step (State.reset.withFetchWord 40 0x3FFFFFFFF) = exec (.lzc 0xFFFFFFFF#32) State.reset := by rfl

/-- R110: what reset discards. -/
theorem test_step_reset :
    step { reg := 0xCAFE#16, rspQueue := [0x0000000F#32], delivered := [], input := [.reset] } = .next State.reset := by rfl

/-! ### Scripts (R53, R54, P3) -/

theorem test_script :
    assembleScript ["LZC 0 ; P3".toList, "CRC_BYTE 0x61".toList, "".toList, "LZC -1".toList, "CRC_FINAL".toList] =
      .ok [0x300000000#34, 0x100000061#34, 0x3FFFFFFFF#34, 0x200000000#34] := by decide +kernel

theorem test_script_macro :
    readScript ["CRC16 [0x31, 50]".toList] = .ok [.crcInit, .crcByte 0x31#8, .crcByte 0x32#8, .crcFinal] ∧
    readScript ["CRC16 \"12\"".toList] = .ok [.crcInit, .crcByte 0x31#8, .crcByte 0x32#8, .crcFinal] ∧
    readScript ["CRC16 []".toList] = .ok [.crcInit, .crcFinal] := by decide +kernel

theorem test_script_refuses :
    readScript ["CRC_BYTE 256".toList] = .error (.refused .byteOutOfRange) ∧
    readScript ["LZC 2147483648".toList] = .error (.refused .valueOutOfRange) ∧
    readScript ["crc_init".toList] = .error .unknownMnemonic ∧ readScript ["CRC_INIT 1".toList] = .error .badOperand := by
  decide +kernel

/-! ### Witnesses: the hypotheses of the obligations are met -/

theorem test_witness_DecodeOfEncode : (Instr.lzc 0xFFFFFFFF#32).wf = true ∧ (Instr.crcByte 0xFF#8).wf = true := by decide

theorem test_witness_EncodeOfDecode : CmdWord.isCanonical 0x1000000FF#34 = true := by decide

theorem test_witness_ReservedBits : (0x1FFFFFF31#34 : CmdWord) &&& usedBits (opField 0x1FFFFFF31#34) =
    0x100000031#34 &&& usedBits (opField 0x1FFFFFF31#34) := by decide

theorem test_witness_Numbers : (2 ^ 34 - 1 : Nat) < 2 ^ 34 ∧ 2 ^ 34 ≤ (2 ^ 34 : Nat) ∧ (255 : Nat) < 2 ^ 8 ∧ 2 ^ 8 ≤ (256 : Nat) ∧
    (-(2 ^ 31) ≤ (-2147483648 : Int) ∧ (-2147483648 : Int) < 2 ^ 31) ∧ ((-2147483649 : Int) < -(2 ^ 31)) ∧
    (2 ^ 31 ≤ (2147483648 : Int)) := by decide

theorem test_witness_PatternsAndMessageBytes : (2 ^ 32 - 1 : Nat) < 2 ^ 32 ∧ 2 ^ 32 ≤ (2 ^ 32 : Nat) ∧
    (∀ n ∈ [0, 255], n < 2 ^ 8) ∧ (∃ n ∈ [0, 256, 1], 2 ^ 8 ≤ n) := by decide

theorem test_witness_Scripts : assembleScript ["CRC_FINAL".toList] = .ok [0x200000000#34] ∧
    (0x200000000#34 : CmdWord) ∈ [0x200000000#34] := by decide +kernel

theorem test_witness_Taps : (15 : Nat) < 16 ∧ (0 : Nat) < 16 := by decide

theorem test_witness_Linear : [0x01#8, 0x02#8].length = [0x80#8, 0xFF#8].length := by decide

theorem test_witness_Flip : (0 : Nat) < [0x31#8].length ∧ (7 : Nat) < 8 ∧ (0 : Nat) < 8 := by decide

theorem test_witness_LzcHighest :
    ((0x80000000#32).getLsbD 31 = true ∧ ∀ j, 31 < j → (0x80000000#32).getLsbD j = false) ∧
    ((0x00000001#32).getLsbD 0 = true ∧ ∀ j, 0 < j → (0x00000001#32).getLsbD j = false) ∧
    (∀ i, (0x00000000#32).getLsbD i = false) := by
  refine ⟨⟨by decide, fun j h => BitVec.getLsbD_of_ge _ _ (by omega)⟩, ⟨by decide, fun j h => ?_⟩, fun i => by simp⟩
  simp [BitVec.getLsbD_one]
  omega

theorem test_witness_Negative : -(2 ^ 31) ≤ (-2147483648 : Int) ∧ (-2147483648 : Int) < 0 ∧ -(2 ^ 31) ≤ (-1 : Int) ∧ (-1 : Int) < 0 := by
  decide

theorem test_witness_LzcByRanges : (31 : Nat) ≤ 31 ∧ (0 : Nat) ≤ 31 ∧ (0x00000001#32).toNat ≤ (0x00000002#32).toNat ∧ (31 : Nat) < 32 ∧
    (32 : Nat) ≤ 32 ∧ (0x00000001#32) ≠ 0x00000000#32 := by decide

theorem test_witness_CrcInit : opField 0x0FFFFFFFF#34 = 0b00#2 ∧ State.reset.reg = 0x0000#16 ∧
    ∃ t, exec .crcInit (withCommand 0x3132#16 0#34) = .next t := ⟨by decide, rfl, _, rfl⟩

theorem test_witness_CrcByte : opField 0x1FFFFFF31#34 = 0b01#2 ∧ State.reset.reg = 0x0000#16 := by decide

theorem test_witness_CrcFinal : opField 0x2FFFFFFFF#34 = 0b10#2 ∧ (withCommand 0xBEEF#16 0#34).reg = 0xBEEF#16 ∧
    State.reset.reg = 0x0000#16 ∧ ∃ t, exec .crcFinal (withCommand 0xBEEF#16 0#34) = .next t :=
  ⟨by decide, rfl, rfl, _, rfl⟩

theorem test_witness_Lzc : opField 0x3FFFFFFFF#34 = 0b11#2 ∧ (0x80000000#32).getLsbD 31 = true := by decide

/-- `CommandsChangeOnlyRegAndTheEndOfTheStream`, `WhichCommandsAreIdempotent`: each command completes, twice. -/
theorem test_witness_Twice (i : Instr) : ∃ t u, exec i (withCommand 0xBEEF#16 0#34) = .next t ∧ exec i t = .next u :=
  ⟨_, _, exec_eq_after i _, exec_eq_after i _⟩

theorem test_witness_StepExecutes : (withCommand 0x3132#16 0x100000033#34).input = .command 0x100000033#34 :: [] ∧
    decodeTableWord 40 0x100000033 = some (.crcByte 0x33#8) := by decide

/-- A state with a response waiting, whose host does the given things. -/
def withEvents (events : List HostEvent) : State :=
  { reg := 0x0031#16, rspQueue := [0x0000001F#32], delivered := [0x00000020#32], input := events }

theorem test_witness_StepDelivers :
    ((withEvents [.takeResponse]).input = .takeResponse :: [] ∧ (withEvents [.takeResponse]).rspQueue = 0x0000001F#32 :: []) ∧
    (({ State.reset with input := [.takeResponse] } : State).input = .takeResponse :: [] ∧ State.reset.rspQueue = []) ∧
    State.reset.input = [] := by decide

theorem test_witness_ResetFromEveryState : (withEvents [.reset, .takeResponse]).input = .reset :: [.takeResponse] := rfl

theorem test_witness_ResponsesFit : ResponsesFit (withEvents [.takeResponse]) ∧ ∃ t, step (withEvents [.takeResponse]) = .next t := by
  refine ⟨?_, _, step_eq_following _⟩
  intro v hv
  fin_cases hv <;> decide

theorem test_witness_RegChanges : ∃ t, step (withEvents [.command 0x000000000#34]) = .next t ∧
    t.reg ≠ (withEvents [.command 0x000000000#34]).reg := ⟨_, rfl, by decide⟩

theorem test_witness_RegChanges_by_reset : ∃ t, step (withEvents [.reset]) = .next t ∧ t.reg ≠ (withEvents [.reset]).reg :=
  ⟨_, rfl, by decide⟩

theorem test_witness_Account : Account.Matches { message := [0x31#8], due := [0x00000020#32, 0x0000001F#32] }
    (withEvents [.command 0x200000000#34, .reset, .takeResponse]) := by
  unfold Account.Matches; decide +kernel

theorem test_witness_MidMessage : [Instr.lzc 0#32, .crcInit, .lzc 1#32, .crcByte 0x31#8].filter isCrcCommand =
    .crcInit :: [0x31#8].map .crcByte ∧
    (withEvents (commandEvents [.lzc 0#32, .crcInit, .lzc 1#32, .crcByte 0x31#8])).input =
      commandEvents [.lzc 0#32, .crcInit, .lzc 1#32, .crcByte 0x31#8] := by decide

theorem test_witness_Macro : [Instr.crcInit, .lzc 1#32, .crcByte 0x31#8, .crcFinal].filter isCrcCommand = crc16Commands [0x31#8] ∧
    (withEvents (commandEvents [.crcInit, .lzc 1#32, .crcByte 0x31#8, .crcFinal])).input =
      commandEvents [.crcInit, .lzc 1#32, .crcByte 0x31#8, .crcFinal] := by decide

theorem test_witness_Macro_without_init : State.reset.reg = 0x0000#16 ∧
    [Instr.crcByte 0x31#8, .lzc 1#32, .crcFinal].filter isCrcCommand = [0x31#8].map .crcByte ++ [.crcFinal] := by decide

theorem test_witness_ResponseHistory : (withEvents []).reg = (withCommand 0x0031#16 0#34).reg ∧
    withEvents [] ≠ withCommand 0x0031#16 0#34 := by decide

theorem test_witness_RegReachesNoOutput : Instr.crcFinal ∉ [Instr.crcByte 0x31#8, .lzc 1#32, .crcInit] := by decide

theorem test_witness_ResponsesComeInOrder : HostEvent.reset ∉ [HostEvent.command 0x300000000#34, .takeResponse] ∧
    (withEvents [.command 0x300000000#34, .takeResponse]).input = [.command 0x300000000#34, .takeResponse] := by decide

/-! ### The sequencer -/

/-- The ports at an edge: nothing asserted but what is named. -/
def ports (rst valid : Bool) (cmd : CmdWord) (ready : Bool) : Ports :=
  { rst := rst, cmdValid := valid, cmd := cmd, rspReady := ready }

/-- An idle sequencer with an empty queue. -/
def idleSequencer : Sequencer := { reg := 0x3132#16, sh := 0#8, cnt := 0#5, fin := false, phase := .idle, queue := [] }

/-- A sequencer at the last cycle of a `CRC_FINAL`, with a response waiting. -/
def finishing : Sequencer :=
  { reg := 0x0F78#16, sh := 0#8, cnt := 1#5, fin := true, phase := .shift, queue := [0x00000020#32] }

theorem test_sequencer_is_ready : idleSequencer.cmdReady = true := by simp [Sequencer.cmdReady, idleSequencer, Config.rspDepth]

/-- V4, step 23: the last bit-step of `crc16([0xFF])`; the older response is taken at the same edge. -/
theorem test_sequencer_finishes : (finishing.edge (ports false false 0#34 true)).reg = 0x0000#16 ∧
    (finishing.edge (ports false false 0#34 true)).queue = [0x00001EF0#32] ∧
    (finishing.edge (ports false false 0#34 true)).phase = .idle ∧
    finishing.deliveredWord (ports false false 0#34 true) = [0x00000020#32] := by decide

/-- V4, step 0: the first bit-step of the byte `0xFF`. -/
theorem test_sequencer_shifts :
    (Sequencer.shiftCycle { reg := 0x0000#16, sh := 0xFF#8, cnt := 8#5, fin := false, phase := .shift, queue := [] }) =
      { reg := 0x0001#16, sh := 0xFE#8, cnt := 7#5, fin := false, phase := .shift, queue := [] } := by decide

theorem test_witness_ResetWins : (ports true true 0x100000031#34 true).rst = true := rfl

theorem test_witness_Unaccepted : finishing.accepts (ports false true 0x100000031#34 false) = false ∧
    finishing.accepts (ports false true 0x300000000#34 false) = false := by
  simp [Sequencer.accepts, Sequencer.cmdReady, finishing]

theorem test_witness_Presented : (ports false false 0#34 true).rst = false ∧ finishing.queue = 0x00000020#32 :: [] ∧
    (ports false false 0#34 true).rspReady = true ∧ (ports false false 0#34 false).rspReady = false := by decide

theorem test_witness_Legal_idle : idleSequencer.Legal := by simp [Sequencer.Legal, idleSequencer]

theorem test_witness_Legal_shift :
    Sequencer.Legal { reg := 0#16, sh := 0xFF#8, cnt := 8#5, fin := false, phase := .shift, queue := [] } := by
  simp [Sequencer.Legal, Config.rspDepth]

/-- The idle sequencer accepts any word, so each of the four commands; 8 and 16 edges without reset. -/
theorem test_witness_Cycles (w : CmdWord) : idleSequencer.accepts (ports false true w false) = true ∧
    (List.replicate 8 (ports false false 0#34 false)).length = 8 ∧ (List.replicate 16 (ports false false 0#34 false)).length = 16 ∧
    (∀ q ∈ List.replicate 16 (ports false false 0#34 false), q.rst = false) := by
  simp [Sequencer.accepts, Sequencer.cmdReady, idleSequencer, Config.rspDepth, ports]

theorem test_witness_Cycles_commands : decode (ports false true 0x000000000#34 false).cmd = .crcInit ∧
    decode (ports false true 0x100000031#34 false).cmd = .crcByte 0x31#8 ∧
    decode (ports false true 0x200000000#34 false).cmd = .crcFinal ∧
    decode (ports false true 0x300000001#34 false).cmd = .lzc 0x00000001#32 := by decide

theorem test_witness_Ready : idleSequencer.Legal ∧ (List.replicate 17 (ports false true 0x200000000#34 true)).length = 17 ∧
    (∀ p ∈ List.replicate 17 (ports false true 0x200000000#34 true), p.rst = false ∧ p.rspReady = true) := by
  simp [Sequencer.Legal, idleSequencer, ports]

/-- A full queue. -/
def stalled : Sequencer := { idleSequencer with queue := List.replicate Config.rspDepth 0x00000020#32 }

theorem test_witness_Stall : stalled.Legal ∧ stalled.queue.length = Config.rspDepth ∧
    (∀ p ∈ [ports false true 0x200000000#34 false], p.rst = false ∧ p.rspReady = false) := by
  simp [Sequencer.Legal, stalled, idleSequencer, ports]

end Sys2Proof.Tests
end

section
/-! SUPPORT. What one event of the host does to the block, and a run as the fold of its events. -/

namespace Sys2Proof.Machine

/-- What one event of the host does to the block, the host's events to come left aside (R110, R114, R122). -/
def State.afterEvent (s : State) : HostEvent → State
  | .command w => after (decode w) s
  | .takeResponse => s.deliver
  | .reset => s.applyReset

/-- A command leads only to `after`. -/
theorem after_eq_of_exec {i : Instr} {s t : State} (h : exec i s = .next t) : after i s = t :=
  Host.Outcome.next.inj ((exec_eq_after i s).symm.trans h)

/-- A step leads only to `following`. -/
theorem following_eq_of_step {s t : State} (h : step s = .next t) : following s = t :=
  Host.Outcome.next.inj ((step_eq_following s).symm.trans h)

/-- `following` is the next event's effect, with that event consumed. -/
theorem following_of_input {s : State} {e : HostEvent} {rest : List HostEvent} (h : s.input = e :: rest) :
    following s = ({ s with input := rest } : State).afterEvent e := by
  cases e <;> simp [following, h, State.afterEvent]

/-- With no event left the block waits (R114). -/
theorem following_of_no_input {s : State} (h : s.input = []) : following s = s := by
  simp [following, h]

/-- No command looks at the host's events to come. -/
theorem after_with_input (i : Instr) (s : State) (events : List HostEvent) :
    after i { s with input := events } = { after i s with input := events } := by
  cases i <;> rfl

/-- Taking a response does not look at the host's events to come. -/
theorem State.deliver_with_input (s : State) (events : List HostEvent) :
    State.deliver { s with input := events } = { s.deliver with input := events } := by
  obtain ⟨reg, waiting, delivered, input⟩ := s
  cases waiting <;> rfl

/-- No event's effect depends on the events to come. -/
theorem State.afterEvent_with_input (s : State) (events : List HostEvent) (e : HostEvent) :
    State.afterEvent { s with input := events } e = { s.afterEvent e with input := events } := by
  cases e with
  | command w => exact after_with_input (decode w) s events
  | takeResponse => exact s.deliver_with_input events
  | reset => rfl

/-- A run over a list of events ends in the fold of their effects, with no event left. -/
theorem runsTo_foldl_afterEvent (events : List HostEvent) (s : State) :
    RunsTo events.length { s with input := events } { events.foldl State.afterEvent s with input := [] } := by
  induction events generalizing s with
  | nil => exact runsTo_zero.2 rfl
  | cons e rest ih =>
    have first : following { s with input := e :: rest } = { s.afterEvent e with input := rest } :=
      (following_of_input rfl).trans (s.afterEvent_with_input rest e)
    exact runsTo_succ.2 (first ▸ ih (s.afterEvent e))

end Sys2Proof.Machine
end

section
/-! SUPPORT. The host's account and the block go on agreeing: one lemma per level (command, event, list of events). -/

namespace Sys2Proof.Machine

/-- A command keeps the agreement. Only `CRC_FINAL` needs R67: the checksum is the flushed fold of the open message. -/
theorem Account.Matches.afterCommand {a : Account} {s : State} (h : a.Matches s) (i : Instr) :
    (a.afterCommand i).Matches (Machine.after i s) := by
  obtain ⟨hreg, hstream⟩ := h
  cases i with
  | crcInit => exact ⟨rfl, hstream⟩
  | crcByte byte => exact ⟨by simp [Machine.after, Account.afterCommand, hreg], hstream⟩
  | crcFinal =>
    refine ⟨rfl, ?_⟩
    simp [Machine.after, Account.afterCommand, hreg, hstream, crc16_eq_flush_fold]
  | lzc x => exact ⟨hreg, by simp [Machine.after, Account.afterCommand, hstream]⟩

/-- An event keeps the agreement: taking a response moves a word within the stream, reset starts both again. -/
theorem Account.Matches.after {a : Account} {s : State} (h : a.Matches s) (e : HostEvent) :
    (a.after e).Matches (s.afterEvent e) := by
  cases e with
  | command w => exact h.afterCommand (decode w)
  | takeResponse => exact ⟨s.deliver_reg.trans h.1, s.deliver_stream.trans h.2⟩
  | reset => exact ⟨rfl, rfl⟩

/-- A list of events keeps the agreement. -/
theorem Account.Matches.afterAll {a : Account} {s : State} (h : a.Matches s) (events : List HostEvent) :
    (a.afterAll events).Matches (events.foldl State.afterEvent s) := by
  induction events generalizing a s with
  | nil => exact h
  | cons e rest ih => exact ih (h.after e)

/-- The agreement does not speak of the host's events to come. -/
theorem Account.matches_with_input {a : Account} {s : State} (events : List HostEvent) :
    a.Matches { s with input := events } ↔ a.Matches s := Iff.rfl

end Sys2Proof.Machine
end

section
/-! SUPPORT. What a command changes, and what its response depends on. -/

namespace Sys2Proof.Machine

/-- Only `CRC_FINAL` emits a word that depends on the state (R14, R92). -/
theorem emitted_eq_of_ne_crcFinal {i : Instr} (h : i ≠ .crcFinal) (s s' : State) : emitted i s = emitted i s' := by
  cases i with
  | crcFinal => exact absurd rfl h
  | crcInit | crcByte | lzc => rfl

end Sys2Proof.Machine
end

section
/-! SUPPORT. The sequencer as an implementation of the block: the state of the block it stands for, and one commuting
lemma per thing an edge does. -/

namespace Sys2Proof.Machine

/-- `reg` after `n` bit-steps that take their message bits from the top of `sh`, which shifts left (R120). -/
def shiftOut : Nat → RegWord → Byte → RegWord
  | 0, r, _ => r
  | n + 1, r, sh => shiftOut n (bitstep r (sh.getLsbD 7)) (sh <<< 1)

/-- Eight bits shifted out are a byte-step (R65, R120). -/
theorem shiftOut_eight (r : RegWord) (byte : Byte) : shiftOut 8 r byte = bytestep r byte := by
  simp [shiftOut, bytestep, messageBits_eq]

/-- The bits shifted out in two goes: `sh` has moved on by the length of the first. -/
theorem shiftOut_add (n k : Nat) (r : RegWord) (sh : Byte) :
    shiftOut (n + k) r sh = shiftOut k (shiftOut n r sh) (sh <<< n) := by
  induction n generalizing r sh with
  | zero => simp [shiftOut]
  | succ n ih => rw [Nat.succ_add, shiftOut, ih, shiftOut, ← BitVec.shiftLeft_add, Nat.add_comm 1 n]

/-- Sixteen zero bits shifted out are the two zero byte-steps (R70, R120). -/
theorem shiftOut_sixteen_zero (r : RegWord) : shiftOut 16 r 0#8 = flush r := by
  rw [shiftOut_add 8 8, BitVec.zero_shiftLeft, shiftOut_eight, shiftOut_eight, flush_eq]

/-- Cycles of work left in `SHIFT`. The counter wraps, so this is right of a counter at 0 too, which no legal sequencer
in `SHIFT` has: the commuting lemmas need no invariant. -/
def Sequencer.cyclesLeft (m : Sequencer) : Nat := (m.cnt - 1#5).toNat + 1

/-- `reg` once the bit-steps left are done. -/
def Sequencer.workedReg (m : Sequencer) : RegWord := shiftOut m.cyclesLeft m.reg m.sh

/-- The block's `reg` when the command in execution, if any, is complete (R38, R120). -/
def Sequencer.blockReg (m : Sequencer) : RegWord :=
  match m.phase, m.fin with
  | .idle, _ => m.reg
  | .shift, false => m.workedReg
  | .shift, true => Config.regInit

/-- The response the command in execution has still to enqueue (R120). -/
def Sequencer.owed (m : Sequencer) : List Response :=
  match m.phase, m.fin with
  | .idle, _ => []
  | .shift, false => []
  | .shift, true => [checksumResponse m.workedReg]

/-- The state of the block a sequencer stands for, when the given words have been taken at `rsp`. -/
def Sequencer.block (m : Sequencer) (taken : List Response) : State :=
  { reg := m.blockReg, rspQueue := m.queue ++ m.owed, delivered := taken, input := [] }

theorem Sequencer.block_of_idle {m : Sequencer} (h : m.phase = .idle) (taken : List Response) :
    m.block taken = { reg := m.reg, rspQueue := m.queue, delivered := taken, input := [] } := by
  simp [Sequencer.block, Sequencer.blockReg, Sequencer.owed, h]

theorem Sequencer.block_of_byte {m : Sequencer} (h : m.phase = .shift) (hf : m.fin = false) (taken : List Response) :
    m.block taken = { reg := m.workedReg, rspQueue := m.queue, delivered := taken, input := [] } := by
  simp [Sequencer.block, Sequencer.blockReg, Sequencer.owed, h, hf]

theorem Sequencer.block_of_final {m : Sequencer} (h : m.phase = .shift) (hf : m.fin = true) (taken : List Response) :
    m.block taken = { reg := Config.regInit, rspQueue := m.queue ++ [checksumResponse m.workedReg],
                      delivered := taken, input := [] } := by
  simp [Sequencer.block, Sequencer.blockReg, Sequencer.owed, h, hf]

@[simp] theorem Sequencer.taken_blockReg (m : Sequencer) (p : Ports) : (m.taken p).blockReg = m.blockReg := by
  simp [Sequencer.blockReg, Sequencer.workedReg, Sequencer.cyclesLeft]

@[simp] theorem Sequencer.taken_owed (m : Sequencer) (p : Ports) : (m.taken p).owed = m.owed := by
  simp [Sequencer.owed, Sequencer.workedReg, Sequencer.cyclesLeft]

/-- A delivery is of exactly one word (R58). -/
theorem Sequencer.deliveredWord_of_delivers {m : Sequencer} {p : Ports} (h : m.delivers p = true) :
    ∃ v, m.deliveredWord p = [v] := by
  cases hq : m.queue with
  | nil => simp [Sequencer.delivers, Sequencer.rspValid, hq] at h
  | cons v rest => exact ⟨v, by simp [Sequencer.deliveredWord, h, Sequencer.rsp, hq]⟩

/-- The response handshake (R58): the block delivers the same word. -/
theorem Sequencer.block_taken (m : Sequencer) (p : Ports) (words : List Response) :
    (m.taken p).block (words ++ m.deliveredWord p) =
      if m.delivers p then (m.block words).deliver else m.block words := by
  have order := m.deliveredWord_append_taken p
  split
  case isTrue delivers =>
    obtain ⟨v, word⟩ := Sequencer.deliveredWord_of_delivers delivers
    have waiting : (m.block words).rspQueue = v :: ((m.taken p).queue ++ m.owed) := by
      simp [Sequencer.block, ← order, word]
    rw [State.deliver_of_waiting waiting, word]
    simp [Sequencer.block]
  case isFalse keeps =>
    simp [Sequencer.block, Sequencer.taken, Sequencer.deliveredWord, keeps]

/-- The work of a byte is its byte-step. -/
theorem Sequencer.workedReg_accept_crcByte (m : Sequencer) (byte : Byte) :
    (m.accept (.crcByte byte)).workedReg = bytestep m.reg byte := by
  simp [Sequencer.workedReg, Sequencer.cyclesLeft, Sequencer.accept, shiftOut_eight]

/-- The work of a final is the two zero byte-steps. -/
theorem Sequencer.workedReg_accept_crcFinal (m : Sequencer) : (m.accept .crcFinal).workedReg = flush m.reg := by
  simp [Sequencer.workedReg, Sequencer.cyclesLeft, Sequencer.accept, shiftOut_sixteen_zero]

/-- An acceptance in `IDLE` (R57, R120): the block executes the command, whole. -/
theorem Sequencer.block_accept {m : Sequencer} (h : m.phase = .idle) (i : Instr) (words : List Response) :
    (m.accept i).block words = after i (m.block words) := by
  rw [Sequencer.block_of_idle h]
  cases i with
  | crcInit => exact Sequencer.block_of_idle (m := m.accept .crcInit) h words
  | crcByte byte =>
    rw [Sequencer.block_of_byte rfl rfl, Sequencer.workedReg_accept_crcByte]
    rfl
  | crcFinal =>
    rw [Sequencer.block_of_final rfl rfl, Sequencer.workedReg_accept_crcFinal]
    rfl
  | lzc x => exact Sequencer.block_of_idle (m := m.accept (.lzc x)) h words

/-- A cycle that is not the last does the first of the bit-steps left, so what they lead to is the same. -/
theorem Sequencer.workedReg_shiftCycle {m : Sequencer} (h : m.cnt ≠ 1#5) : m.shiftCycle.workedReg = m.workedReg := by
  have count : ∀ c : BitVec 5, c ≠ 1#5 → (c - 1#5).toNat = (c - 1#5 - 1#5).toNat + 1 := by decide
  rw [Sequencer.shiftCycle_of_more h, Sequencer.workedReg, Sequencer.workedReg, Sequencer.cyclesLeft,
    Sequencer.cyclesLeft, count m.cnt h]
  rfl

/-- With one bit-step left, it is the whole of the work. -/
theorem Sequencer.workedReg_of_last {m : Sequencer} (h : m.cnt = 1#5) :
    m.workedReg = bitstep m.reg (m.sh.getLsbD 7) := by
  simp [Sequencer.workedReg, Sequencer.cyclesLeft, h, shiftOut]

/-- A cycle of work (R120): the block has executed the command already and stays as it is. -/
theorem Sequencer.block_shiftCycle {m : Sequencer} (h : m.phase = .shift) (words : List Response) :
    m.shiftCycle.block words = m.block words := by
  by_cases last : m.cnt = 1#5
  · cases hf : m.fin with
    | false =>
      rw [Sequencer.block_of_byte h hf, Sequencer.shiftCycle_of_last_byte last hf, Sequencer.block_of_idle rfl,
        Sequencer.workedReg_of_last last]
    | true =>
      rw [Sequencer.block_of_final h hf, Sequencer.shiftCycle_of_last_final last hf, Sequencer.block_of_idle rfl,
        Sequencer.workedReg_of_last last]
  · simp only [Sequencer.block, Sequencer.blockReg, Sequencer.owed, Sequencer.workedReg_shiftCycle last]
    rw [Sequencer.shiftCycle_of_more last, h]
    cases m.fin <;> rfl

/-- Reset (R110): the sequencer and the block are both in their reset state. -/
theorem Sequencer.block_afterReset (m m' : Sequencer) (words : List Response) :
    m.afterReset.block [] = (m'.block words).applyReset := rfl

/-- No command is accepted while one is in execution (R120). -/
theorem Sequencer.accepts_of_shift {m : Sequencer} (h : m.phase = .shift) (p : Ports) : m.accepts p = false := by
  simp [Sequencer.accepts, Sequencer.cmdReady, h]

/-- The commuting square of one edge: it takes the block through the edge's events (R57, R58, R98). -/
theorem Sequencer.block_edge (m : Sequencer) (p : Ports) (words : List Response) :
    (m.edge p).block (if p.rst then [] else words ++ m.deliveredWord p) =
      (m.edgeEvents p).foldl State.afterEvent (m.block words) := by
  have handshake : (if m.delivers p then [HostEvent.takeResponse] else []).foldl State.afterEvent (m.block words) =
      (m.taken p).block (words ++ m.deliveredWord p) := by
    rw [m.block_taken p words]
    split <;> rfl
  rw [Sequencer.edgeEvents, List.foldl_append, handshake]
  cases hr : p.rst with
  | true =>
    simp only [Sequencer.edge, hr, if_true]
    exact Sequencer.block_afterReset _ _ _
  | false =>
    cases hp : m.phase with
    | idle =>
      rw [Sequencer.edge_of_idle hr hp]
      cases m.accepts p with
      | false => rfl
      | true => exact Sequencer.block_accept ((m.taken_phase p).trans hp) _ _
    | shift =>
      rw [Sequencer.edge_of_shift hr hp, m.accepts_of_shift hp p]
      exact Sequencer.block_shiftCycle ((m.taken_phase p).trans hp) _

/-- An observation is faithful when the events seen take the block from reset to the state the sequencer stands for. -/
def Observation.Faithful (o : Observation) : Prop :=
  o.events.foldl State.afterEvent State.reset = o.machine.block o.taken

theorem Observation.faithful_start (m : Sequencer) : (Observation.start m).Faithful := rfl

theorem Observation.Faithful.after {o : Observation} (h : o.Faithful) (p : Ports) : (o.after p).Faithful := by
  rw [Observation.Faithful] at h ⊢
  simp only [Observation.after]
  rw [List.foldl_append, h, o.machine.block_edge p]

theorem Observation.Faithful.afterAll {o : Observation} (h : o.Faithful) (ports : List Ports) :
    (o.afterAll ports).Faithful := by
  induction ports generalizing o with
  | nil => exact h
  | cons p rest ih => exact ih (h.after p)

end Sys2Proof.Machine
end

section
/-! THEOREMS. The statements about the state (10_state.md), settled from the lemmas above. -/

namespace Sys2Proof.Machine

/-- Settles O42: the agreement is kept by every event, so by every list of them. -/
theorem everyRunAnswersTheHostsAccount : Obligations.EveryRunAnswersTheHostsAccount := by
  intro events a s agrees input
  subst input
  exact ⟨_, runsTo_foldl_afterEvent s.input s, rfl, (Account.matches_with_input []).2 (agrees.afterAll s.input)⟩

/-- Settles O32: the frame lemmas of `after`, and the number of words each command emits. -/
theorem commandsChangeOnlyRegAndTheEndOfTheStream : Obligations.CommandsChangeOnlyRegAndTheEndOfTheStream := by
  intro i s t h
  obtain rfl := after_eq_of_exec h
  refine ⟨after_input i s, after_delivered i s, ⟨emitted i s, after_rspQueue i s, ?_⟩, ?_⟩
  · cases i <;> rfl
  · rintro x rfl
    rfl

/-- Settles O46, by induction over the commands: equal registers give equal responses and equal registers again. -/
theorem responseHistoryNeverInfluencesLaterResponses : Obligations.ResponseHistoryNeverInfluencesLaterResponses := by
  intro s s' commands hreg
  induction commands generalizing s s' with
  | nil => rfl
  | cons i rest ih =>
    rw [emissions_cons, emissions_cons, emitted_congr i hreg, ih _ _ (after_reg_congr i hreg)]

/-- Settles O47, by induction over the commands: each of them emits the same from every state. -/
theorem regReachesNoOutputBeforeAFinal : Obligations.RegReachesNoOutputBeforeAFinal := by
  intro s s' commands noFinal
  induction commands generalizing s s' with
  | nil => rfl
  | cons i rest ih =>
    obtain ⟨hi, hrest⟩ := List.ne_and_not_mem_of_not_mem_cons noFinal
    rw [emissions_cons, emissions_cons, emitted_eq_of_ne_crcFinal hi.symm s s', ih _ (after i s') hrest]

/-- Settles O56: every observation that begins with a reset is faithful, so the run ends in the state of the block the
sequencer stands for. -/
theorem sequencerRefinesTheCommands : Obligations.SequencerRefinesTheCommands := by
  intro m ports
  have faithful := (Observation.faithful_start m).afterAll ports
  have run := runsTo_foldl_afterEvent ((Observation.start m).afterAll ports).events State.reset
  rw [faithful] at run
  refine ⟨_, run, rfl, rfl, List.prefix_append _ _, fun idle => ?_⟩
  simp [Sequencer.block_of_idle idle]

/-- Settles O36: the reset states as they are defined. -/
theorem resetStateIsAsSpecified : Obligations.ResetStateIsAsSpecified :=
  ⟨rfl, rfl, State.reset_stream, fun _ => ⟨rfl, rfl, rfl, rfl, rfl⟩⟩

/-- Settles O40: the stream after reset is empty. -/
theorem responsesFitAfterReset : Obligations.ResponsesFitAfterReset := by
  intro v hv
  rw [State.reset_stream] at hv
  exact absurd hv List.not_mem_nil

/-- Settles O41, by cases on the host's next event. -/
theorem regChangesOnlyByCrcCommandsAndReset : Obligations.RegChangesOnlyByCrcCommandsAndReset := by
  intro s t h changed
  obtain rfl := following_eq_of_step h
  cases input : s.input with
  | nil => exact absurd (congrArg State.reg (following_of_no_input input)) changed
  | cons e rest =>
    rw [following_of_input input] at changed
    cases e with
    | command w =>
      refine .inl ⟨w, rest, rfl, fun isLzc => changed ?_⟩
      rw [State.afterEvent, decode_of_op_lzc isLzc]
      rfl
    | takeResponse => exact absurd (State.deliver_reg _) changed
    | reset => exact .inr ⟨rest, rfl⟩

/-- Settles O54: idle, no bit-steps left, and an empty queue. -/
theorem sequencerLegalAfterReset : Obligations.SequencerLegalAfterReset :=
  fun _ => ⟨rfl, Nat.zero_le _⟩

end Sys2Proof.Machine
end

section
/-! SUPPORT. Emissions of lists of commands: appended lists, the bytes of a message, a whole message. -/

namespace Sys2Proof.Machine

/-- The state a list of commands leads to. -/
def afterCommands (s : State) (commands : List Instr) : State := commands.foldl (fun s i => after i s) s

@[simp] theorem afterCommands_nil (s : State) : afterCommands s [] = s := rfl

@[simp] theorem afterCommands_cons (s : State) (i : Instr) (rest : List Instr) :
    afterCommands s (i :: rest) = afterCommands (after i s) rest := rfl

/-- The emissions of two lists of commands, one after the other. -/
theorem emissions_append (s : State) (first second : List Instr) :
    emissions s (first ++ second) = emissions s first ++ emissions (afterCommands s first) second := by
  induction first generalizing s with
  | nil => rfl
  | cons i rest ih => simp [emissions_cons, ih]

/-- The words of `emissions_cons`, without the commands that emitted them. -/
theorem map_snd_emissions_cons (s : State) (i : Instr) (rest : List Instr) :
    (emissions s (i :: rest)).map Prod.snd = emitted i s ++ (emissions (after i s) rest).map Prod.snd := by
  simp [emissions_cons]

/-- The bytes of a message take `reg` through their byte-steps (R69). -/
theorem afterCommands_crcByte_reg (s : State) (bytes : List Byte) :
    (afterCommands s (bytes.map .crcByte)).reg = bytes.foldl bytestep s.reg := by
  induction bytes generalizing s with
  | nil => rfl
  | cons byte rest ih => exact ih (after (.crcByte byte) s)

/-- The bytes of a message emit nothing (R69). -/
theorem emissions_crcByte (s : State) (bytes : List Byte) : emissions s (bytes.map .crcByte) = [] := by
  induction bytes generalizing s with
  | nil => rfl
  | cons byte rest ih => rw [List.map_cons, emissions_cons, ih]; rfl

/-- The pseudo-instruction `CRC16` emits the checksum of its bytes and nothing else, from every state (R71). -/
theorem emissions_crc16Commands (s : State) (bytes : List Byte) :
    emissions s (crc16Commands bytes) = [(.crcFinal, checksumResponse (crc16 bytes))] := by
  have reg : (afterCommands (after .crcInit s) (bytes.map .crcByte)).reg = fold bytes :=
    afterCommands_crcByte_reg (after .crcInit s) bytes
  rw [crc16Commands, emissions_cons, emissions_append, emissions_crcByte]
  simp [emissions_cons, emitted, reg, crc16_eq_flush_fold]

end Sys2Proof.Machine
end

section
/-! SUPPORT. The response stream and the words taken, over a list of events without a reset. -/

namespace Sys2Proof.Machine

/-- The command an event of the host makes the block execute, if any (R49, R57). -/
def HostEvent.command? : HostEvent → Option Instr
  | .command w => some (decode w)
  | .takeResponse => none
  | .reset => none

@[simp] theorem HostEvent.command?_command (w : CmdWord) : (HostEvent.command w).command? = some (decode w) := rfl
@[simp] theorem HostEvent.command?_takeResponse : HostEvent.takeResponse.command? = none := rfl

/-- Without a reset the stream grows by what the commands emit, in their order (R25, R41): taking a response moves a word
within the stream, and no later response depends on it. -/
theorem stream_foldl_afterEvent {events : List HostEvent} (noReset : .reset ∉ events) (s : State) :
    (events.foldl State.afterEvent s).stream =
      s.stream ++ (emissions s (events.filterMap HostEvent.command?)).map Prod.snd := by
  induction events generalizing s with
  | nil => simp
  | cons e rest ih =>
    obtain ⟨notReset, restNoReset⟩ := List.ne_and_not_mem_of_not_mem_cons noReset
    rw [List.foldl_cons, ih restNoReset]
    cases e with
    | command w => simp [State.afterEvent, after_stream, map_snd_emissions_cons]
    | takeResponse =>
      have later := responseHistoryNeverInfluencesLaterResponses s.deliver s
        (rest.filterMap HostEvent.command?) s.deliver_reg
      simp [List.filterMap_cons, State.afterEvent, later]
    | reset => exact absurd rfl notReset

/-- An event that is no reset only adds to the words taken, at their end (R58). -/
theorem State.delivered_isPrefix_afterEvent (s : State) {e : HostEvent} (h : e ≠ .reset) :
    s.delivered <+: (s.afterEvent e).delivered := by
  cases e with
  | command w => rw [State.afterEvent, after_delivered]
  | takeResponse => exact s.delivered_isPrefix_deliver
  | reset => exact absurd rfl h

/-- Without a reset the words taken only grow at their end (R58). -/
theorem delivered_isPrefix_foldl_afterEvent {events : List HostEvent} (noReset : .reset ∉ events) (s : State) :
    s.delivered <+: (events.foldl State.afterEvent s).delivered := by
  induction events generalizing s with
  | nil => exact List.prefix_rfl
  | cons e rest ih =>
    obtain ⟨notReset, restNoReset⟩ := List.ne_and_not_mem_of_not_mem_cons noReset
    exact (s.delivered_isPrefix_afterEvent notReset.symm).trans (ih restNoReset (s.afterEvent e))

end Sys2Proof.Machine
end

section
/-! THEOREMS. The statements about the response stream and side effects (20_memory.md), settled from the lemmas above. -/

namespace Sys2Proof.Machine

/-- Settles O48, by induction over the messages: each is answered alike from every state. -/
theorem messagesInSequenceAreIndependent : Obligations.MessagesInSequenceAreIndependent := by
  intro s messages
  induction messages generalizing s with
  | nil => rfl
  | cons message rest ih =>
    rw [List.flatMap_cons, emissions_append, List.map_append, emissions_crc16Commands, ih]
    rfl

/-- Settles O49: the run is the fold of its events, none of which is a reset. -/
theorem responsesComeInCommandOrderExactlyOnce : Obligations.ResponsesComeInCommandOrderExactlyOnce := by
  intro s events noReset input
  subst input
  exact ⟨_, runsTo_foldl_afterEvent s.input s, stream_foldl_afterEvent noReset s,
    delivered_isPrefix_foldl_afterEvent noReset s⟩

/-- Settles O33. `CRC_BYTE 0x31` twice after reset leaves `0x3131`, not `0x0031`; the second `CRC_FINAL` flushes the zero
the first one left in `reg`. -/
theorem whichCommandsAreIdempotent : Obligations.WhichCommandsAreIdempotent := by
  refine ⟨?lzc, ?crcInit, ?crcByte, ?crcFinal, ?frame⟩
  case lzc =>
    intro x s t u first second
    obtain rfl := after_eq_of_exec first
    obtain rfl := after_eq_of_exec second
    exact ⟨rfl, rfl, countResponse (lzc32 x), rfl, by simp [after]⟩
  case crcInit =>
    intro s t first
    obtain rfl := after_eq_of_exec first
    exact exec_eq_after .crcInit _
  case crcByte =>
    exact ⟨0x31#8, State.reset, _, _, exec_eq_after _ _, exec_eq_after _ _, by decide +kernel⟩
  case crcFinal =>
    intro s t u first second
    obtain rfl := after_eq_of_exec first
    obtain rfl := after_eq_of_exec second
    have flushed : checksumResponse (flush Config.regInit) = 0x00000000#32 := by decide +kernel
    exact ⟨rfl, rfl, by rw [after_rspQueue, ← flushed]; rfl⟩
  case frame =>
    intro i s t h
    obtain rfl := after_eq_of_exec h
    exact ⟨after_input i s, after_delivered i s⟩

end Sys2Proof.Machine
end

section
/-! SUPPORT. Command words as their two fields, and the encoder and decoder as inverses (R45 to R50). -/

namespace Sys2Proof

/-- A word is its two fields put together (R45). -/
theorem assemble_fields (w : CmdWord) : assemble (opField w) (patternField w) = w := by
  apply BitVec.eq_of_getLsbD_eq
  intro i hi
  rw [getLsbD_assemble]
  by_cases h : i < 32
  · simp [patternField, h]
  · simp [opField, h, show i - 32 < 2 by omega, show 32 + (i - 32) = i by omega]

/-- Masking a word masks its two fields. -/
theorem assemble_and_assemble (op op' : BitVec 2) (data data' : BitVec 32) :
    assemble op data &&& assemble op' data' = assemble (op &&& op') (data &&& data') := by
  apply BitVec.eq_of_getLsbD_eq
  intro i _
  rw [BitVec.getLsbD_and]
  simp only [getLsbD_assemble]
  split <;> simp

/-- The bits of `data` that are not reserved, by opcode (R50). -/
def usedData (op : BitVec 2) : BitVec 32 :=
  if op = 0b01#2 then 0x000000FF#32 else if op = 0b11#2 then 0xFFFFFFFF#32 else 0x00000000#32

/-- Both bits of `op` are in use, and of `data` those the opcode uses (R50). -/
theorem usedBits_eq_assemble (op : BitVec 2) : usedBits op = assemble 0b11#2 (usedData op) := by
  revert op; decide

/-- Masking with bits in use keeps `op` and masks `data` (R50). -/
theorem and_usedBits (w : CmdWord) (op : BitVec 2) :
    w &&& usedBits op = assemble (opField w) (patternField w &&& usedData op) := by
  have keepsOp : opField w &&& 0b11#2 = opField w := BitVec.and_allOnes
  rw [usedBits_eq_assemble, ← keepsOp, ← assemble_and_assemble, assemble_fields]

/-- A byte operand is the low eight bits of `data` (R47). -/
theorem setWidth_byteField (w : CmdWord) : (byteField w).setWidth 32 = patternField w &&& 0x000000FF#32 := by
  apply BitVec.eq_of_getLsbD_eq
  intro i hi
  have mask : ∀ i, i < 32 → (0x000000FF#32).getLsbD i = decide (i < 8) := by decide
  simp only [byteField, patternField, BitVec.getLsbD_setWidth, BitVec.getLsbD_extractLsb', BitVec.getLsbD_and,
    mask i hi, hi, decide_true, Bool.true_and, Bool.and_comm]

/-- The decoder recovers every command from its canonical word (R50). -/
@[simp] theorem decode_encode (i : Instr) : decode (encode i) = i := by
  cases i with
  | crcInit => exact decode_of_op_crcInit (opField_assemble _ _)
  | crcByte byte =>
    rw [encode, decode_of_op_crcByte (opField_assemble _ _), byteField_assemble,
      BitVec.extractLsb'_setWidth_of_le (by decide), BitVec.extractLsb'_eq_self]
  | crcFinal => exact decode_of_op_crcFinal (opField_assemble _ _)
  | lzc x => rw [encode, decode_of_op_lzc (opField_assemble _ _), patternField_assemble]

/-- The canonical word of a word's command is the word with its reserved bits cleared (R50). -/
theorem encode_decode (w : CmdWord) : encode (decode w) = w &&& usedBits (opField w) := by
  rw [and_usedBits]
  rcases op_cases (opField w) with h | h | h | h
  · rw [decode_of_op_crcInit h, h]; simp [encode, usedData]
  · rw [decode_of_op_crcByte h, h]; simp [encode, usedData, setWidth_byteField]
  · rw [decode_of_op_crcFinal h, h]; simp [encode, usedData]
  · have all : usedData 0b11#2 = BitVec.allOnes 32 := by decide
    rw [decode_of_op_lzc h, h, all, BitVec.and_allOnes]; rfl

/-- Every word the encoder gives has its reserved bits zero (R50). -/
theorem isCanonical_encode (i : Instr) : CmdWord.isCanonical (encode i) = true :=
  match i with
  | .crcInit => Laws.CanonicalEncoding.crcInit.1
  | .crcByte byte => (Laws.CanonicalEncoding.crcByte byte).1
  | .crcFinal => Laws.CanonicalEncoding.crcFinal.1
  | .lzc x => (Laws.CanonicalEncoding.lzc x).1

/-- A canonical word is the word of its command (R50). -/
theorem encode_decode_of_isCanonical {w : CmdWord} (h : w.isCanonical = true) : encode (decode w) = w :=
  (encode_decode w).trans (eq_of_beq h)

/-- Words that agree on the bits in use stand for the same command (R50). -/
theorem decode_eq_of_usedBits_eq {w v : CmdWord} (h : w &&& usedBits (opField w) = v &&& usedBits (opField w)) :
    decode w = decode v := by
  have op : opField w = opField v := by
    simpa only [and_usedBits, opField_assemble] using congrArg opField h
  calc decode w = decode (w &&& usedBits (opField w)) := by rw [← encode_decode, decode_encode]
    _ = decode (v &&& usedBits (opField v)) := by rw [h, op]
    _ = decode v := by rw [← encode_decode, decode_encode]

/-- The rows' mask, the same in all four, leaves the opcode of a word (R49). -/
theorem and_opMask (w : CmdWord) : w &&& 0x300000000#34 = assemble (opField w) 0#32 :=
  (and_usedBits w 0b00#2).trans (congrArg _ BitVec.and_zero)

/-- The rows a word meets are those of its opcode (R49). -/
theorem filter_opcodeTable (w : CmdWord) :
    opcodeTable.filter (fun r => r.hits w) = opcodeTable.filter (fun r => assemble (opField w) 0#32 == r.pattern) := by
  rw [← and_opMask]; rfl

end Sys2Proof
end

section
/-! SUPPORT. A host's numbers as words, bytes and patterns: taken at their value or refused by name (R53, R54, R96, S6). -/

namespace Sys2Proof

theorem transcribeWord_of_lt {n : Nat} (h : n < 2 ^ 34) : transcribeWord n = .ok (BitVec.ofNat 34 n) := if_pos h

theorem transcribeWord_of_le {n : Nat} (h : 2 ^ 34 ≤ n) : transcribeWord n = .error .wordTooWide :=
  if_neg (Nat.not_lt.2 h)

/-- The number of a word is transcribed to the word (R45). -/
@[simp] theorem transcribeWord_toNat (w : CmdWord) : transcribeWord w.toNat = .ok w := by
  rw [transcribeWord_of_lt w.isLt, BitVec.ofNat_toNat, BitVec.setWidth_eq]

theorem byteFits_iff {n : Nat} : byteFits n = true ↔ n < 2 ^ 8 := decide_eq_true_iff

theorem transcribeByte_of_lt {n : Nat} (h : n < 2 ^ 8) : transcribeByte n = .ok (BitVec.ofNat 8 n) :=
  if_pos (byteFits_iff.2 h)

theorem transcribeByte_of_le {n : Nat} (h : 2 ^ 8 ≤ n) : transcribeByte n = .error .byteOutOfRange :=
  if_neg fun fits => Nat.not_lt.2 h (byteFits_iff.1 fits)

theorem fits_signed_iff {n : Int} : (LzcOperand.signed n).fits = true ↔ -(2 ^ 31) ≤ n ∧ n < 2 ^ 31 := by
  simp [LzcOperand.fits]

/-- A message is transcribed byte by byte, and refused when one of its numbers does not fit (R54, R96). -/
theorem transcribeBytes_eq (ns : List Nat) : transcribeBytes ns =
    if ns.all byteFits then .ok (ns.map (BitVec.ofNat 8)) else .error .byteOutOfRange := by
  induction ns with
  | nil => rfl
  | cons n rest ih =>
    rw [transcribeBytes, ih, transcribeByte]
    cases first : byteFits n with
    | false => simp [first]
    | true => cases others : rest.all byteFits <;> simp [first, others]

/-- A guarded answer is an answer exactly when its guard holds. -/
theorem exists_guarded_eq_ok {ε α : Type} {guard : Bool} {a : α} {e : ε} :
    (∃ x, (if guard then Except.ok a else .error e) = .ok x) ↔ guard = true := by
  cases guard <;> simp

/-- Mapping an answer keeps whether there is one. -/
theorem exists_map_eq_ok {ε α β : Type} {x : Except ε α} (f : α → β) :
    (∃ y, x.map f = .ok y) ↔ ∃ a, x = .ok a := by
  cases x <;> simp [Except.map]

/-- A script line expands exactly when all its operands fit (R53, R54, R96). -/
theorem SourceCmd.wf_iff_expands (c : SourceCmd) : c.wf = true ↔ ∃ is, c.expand = .ok is := by
  cases c with
  | crcInit => exact iff_of_true rfl ⟨_, rfl⟩
  | crcByte n => exact ((exists_map_eq_ok _).trans exists_guarded_eq_ok).symm
  | crcFinal => exact iff_of_true rfl ⟨_, rfl⟩
  | lzc v => exact ((exists_map_eq_ok _).trans exists_guarded_eq_ok).symm
  | crc16 bytes =>
    rw [SourceCmd.expand, transcribeBytes_eq]
    exact ((exists_map_eq_ok _).trans exists_guarded_eq_ok).symm

end Sys2Proof
end

section
/-! SUPPORT. The nine-digit spelling of a command word, and the words of a script (R46, R53). -/

namespace Sys2Proof.Machine

/-- A hexadecimal digit as it is written is read at its value (R46). -/
theorem hexDigit_hexChar : ∀ d < 16, hexDigit (hexChar d) = some d := by decide

/-- Written hexadecimal digits are read as the number they spell. -/
theorem readDigits_map_hexChar {digits : List Nat} (h : ∀ d ∈ digits, d < 16) (acc : Nat) :
    readDigits 16 hexDigit acc (digits.map hexChar) = some (digits.foldl (fun n d => 16 * n + d) acc) := by
  induction digits generalizing acc with
  | nil => rfl
  | cons d rest ih =>
    obtain ⟨hd, hrest⟩ := List.forall_mem_cons.1 h
    rw [List.map_cons, readDigits, hexDigit_hexChar d hd, Nat.mul_comm acc 16]
    exact ih hrest _

/-- The digits of a spelling are hexadecimal digits (R46). -/
theorem lt_of_mem_spelledDigits {w : CmdWord} {d : Nat} (h : d ∈ spelledDigits w) : d < 16 := by
  rcases List.mem_cons.1 h with rfl | data
  · exact (opField w).isLt.trans (by decide)
  · obtain ⟨k, _, rfl⟩ := List.mem_map.1 data
    exact BitVec.isLt _

/-- The low `k` hexadecimal digits of a word spell its value modulo `16 ^ k`. -/
theorem foldl_nibbles (w : CmdWord) (k acc : Nat) :
    ((List.range k).reverse.map fun i => (w.extractLsb' (4 * i) 4).toNat).foldl (fun n d => 16 * n + d) acc =
      16 ^ k * acc + w.toNat % 16 ^ k := by
  induction k generalizing acc with
  | zero => simp [Nat.mod_one]
  | succ k ih =>
    have digit : (w.extractLsb' (4 * k) 4).toNat = w.toNat / 16 ^ k % 16 := by
      rw [BitVec.extractLsb'_toNat, Nat.shiftRight_eq_div_pow, Nat.pow_mul]
    rw [List.range_succ, List.reverse_append, List.reverse_singleton, List.singleton_append, List.map_cons,
      List.foldl_cons, ih, digit, Nat.mod_pow_succ]
    ring

/-- The last eight digits of a spelling spell `data` (R46). -/
theorem foldl_tail_spelledDigits (w : CmdWord) (acc : Nat) :
    (spelledDigits w).tail.foldl (fun n d => 16 * n + d) acc = 2 ^ 32 * acc + (patternField w).toNat :=
  (foldl_nibbles w 8 acc).trans (congrArg _ (BitVec.extractLsb'_toNat 0 32 w).symm)

/-- The number of a word: `op` above the 32 bits of `data` (R45). -/
theorem toNat_fields (w : CmdWord) : 2 ^ 32 * (opField w).toNat + (patternField w).toNat = w.toNat := by
  simp only [opField, patternField, BitVec.extractLsb'_toNat, Nat.shiftRight_eq_div_pow]
  omega

/-- The nine digits of a spelling spell the word (R46). -/
theorem foldl_spelledDigits (w : CmdWord) : (spelledDigits w).foldl (fun n d => 16 * n + d) 0 = w.toNat := by
  rw [← toNat_fields, ← foldl_tail_spelledDigits]
  simp [spelledDigits]

/-- A spelling is read back as the word (R46). -/
theorem readSpelling_spell (w : CmdWord) : readSpelling (spell w) = some w := by
  have number : readNumber 16 hexDigit ((spelledDigits w).map hexChar) = some w.toNat :=
    (readDigits_map_hexChar (fun _ => lt_of_mem_spelledDigits) 0).trans (congrArg some (foldl_spelledDigits w))
  have nine : ((spelledDigits w).map hexChar).length = 9 := rfl
  simp [readSpelling, spell, number, nine]

/-- The words of a script are canonical words of commands (R53). -/
theorem exists_encode_of_mem_assembleScript {lines : List (List Char)} {words : List CmdWord}
    (h : assembleScript lines = .ok words) {w : CmdWord} (hw : w ∈ words) : ∃ i, encode i = w := by
  unfold assembleScript at h
  cases commands : readScript lines with
  | error e => rw [commands] at h; cases h
  | ok is =>
    rw [commands] at h
    obtain rfl := Except.ok.inj h
    exact (List.mem_map.1 hw).imp fun _ => And.right

end Sys2Proof.Machine
end

section
/-! SUPPORT. Responses: their layout, and how large they can be (R51, R72, R88). -/

namespace Sys2Proof.Machine

/-- The count is at most 32 (R85). -/
theorem lzcFrom_le (x : Pattern) (n : Nat) : lzcFrom x n ≤ 32 := by
  induction n with
  | zero => exact le_rfl
  | succ n ih => rw [lzcFrom_succ]; split <;> omega

/-- The loop runs to its end only over zero bits: the converse of `lzcFrom_of_clear` (R85). -/
theorem clear_of_lzcFrom {x : Pattern} {n : Nat} (h : lzcFrom x n = 32) : ∀ i, i < n → x.getLsbD i = false := by
  induction n with
  | zero => intro i hi; omega
  | succ n ih =>
    rw [lzcFrom_succ] at h
    split at h
    case isTrue => omega
    case isFalse clear =>
      intro i hi
      rcases Nat.lt_succ_iff_lt_or_eq.1 hi with below | rfl
      · exact ih h i below
      · simpa using clear

theorem lzc32_le (x : Pattern) : lzc32 x ≤ 32 := lzcFrom_le x 32

/-- Only zero has the count 32 (R85). -/
theorem lzc32_eq_32_iff (x : Pattern) : lzc32 x = 32 ↔ x = 0#32 := by
  constructor
  · intro h
    apply BitVec.eq_of_getLsbD_eq
    simpa using clear_of_lzcFrom h
  · rintro rfl
    exact lzcFrom_of_clear _ 32 (by simp)

/-- A checksum response is the checksum as a number (R51). -/
@[simp] theorem toNat_checksumResponse (c : RegWord) : (checksumResponse c).toNat = c.toNat :=
  BitVec.toNat_setWidth_of_le (by decide)

/-- Bits 15:0 of a checksum response are the checksum (R51, R72). -/
theorem checksumResponse_low (c : RegWord) : (checksumResponse c).extractLsb' 0 16 = c :=
  (BitVec.extractLsb'_setWidth_of_le (by decide)).trans BitVec.extractLsb'_eq_self

/-- Bits 31:16 of a checksum response are zero (R51, R72). -/
theorem checksumResponse_high (c : RegWord) : (checksumResponse c).extractLsb' 16 16 = 0#16 := by
  apply BitVec.eq_of_getLsbD_eq
  intro i _
  simp [checksumResponse]

/-- A count response is the count as a number (R51, R88). -/
theorem toNat_countResponse {n : Nat} (h : n ≤ 32) : (countResponse n).toNat = n := by
  rw [countResponse, BitVec.toNat_setWidth_of_le (by decide), BitVec.toNat_ofNat]
  omega

/-- Bits 31:6 of a count response are zero (R51). -/
theorem countResponse_high (n : Nat) : (countResponse n).extractLsb' 6 26 = 0#26 := by
  apply BitVec.eq_of_getLsbD_eq
  intro i _
  simp [countResponse]

/-- Of the counts 0 .. 32 only 32 sets bit 5 (R51, R88). -/
theorem countResponse_bit_five {n : Nat} (h : n ≤ 32) : (countResponse n).getLsbD 5 = true ↔ n = 32 := by
  have all : ∀ n < 33, (countResponse n).getLsbD 5 = true ↔ n = 32 := by decide
  exact all n (by omega)

/-- Every response a command emits is a 16-bit number (R51, R72). -/
theorem toNat_lt_of_mem_emitted {i : Instr} {s : State} {v : Response} (h : v ∈ emitted i s) : v.toNat < 2 ^ 16 := by
  cases i with
  | crcInit | crcByte => exact absurd h List.not_mem_nil
  | crcFinal =>
    rw [List.mem_singleton.1 h, toNat_checksumResponse]
    exact BitVec.isLt _
  | lzc x =>
    rw [List.mem_singleton.1 h, toNat_countResponse (lzc32_le x)]
    have := lzc32_le x
    omega

/-- Every event of the host keeps the responses 16-bit numbers. -/
theorem responsesFit_afterEvent {s : State} (h : ResponsesFit s) (e : HostEvent) : ResponsesFit (s.afterEvent e) := by
  intro v hv
  cases e with
  | command w =>
    rw [State.afterEvent, after_stream, List.mem_append] at hv
    exact hv.elim (h v) toNat_lt_of_mem_emitted
  | takeResponse =>
    rw [State.afterEvent, State.deliver_stream] at hv
    exact h v hv
  | reset => exact absurd hv List.not_mem_nil

end Sys2Proof.Machine
end

section
/-! SUPPORT. A step that accepts a presented word (R49, R57), and the queue of the sequencer over one edge (R58). -/

namespace Sys2Proof.Machine

/-- A word presented is the next one executed. -/
@[simp] theorem step_present (s : State) (w : CmdWord) : step (s.present w) = exec (decode w) s := rfl

/-- A number the decoder reads as a command is a word that can be presented (log 15). -/
theorem withFetchWord_of_decodeTableWord {nbits n : Nat} {i : Instr} (h : decodeTableWord nbits n = some i) (s : State) :
    ∃ w, decode w = i ∧ s.withFetchWord nbits n = s.present w := by
  unfold decodeTableWord at h
  cases word : tableWord nbits n with
  | error e => simp [word] at h
  | ok w => exact ⟨w, by simpa [word] using h, by simp [State.withFetchWord, word]⟩

/-- An accepted command enqueues at most one word, behind the others (R120). -/
theorem Sequencer.accept_queue (m : Sequencer) (i : Instr) :
    ∃ new : Option Response, (m.accept i).queue = m.queue ++ new.toList := by
  cases i with
  | crcInit | crcByte | crcFinal => exact ⟨none, (List.append_nil _).symm⟩
  | lzc x => exact ⟨some (countResponse (lzc32 x)), rfl⟩

/-- A cycle of work enqueues at most one word, behind the others: the last cycle of a final does (R120). -/
theorem Sequencer.shiftCycle_queue (m : Sequencer) :
    ∃ new : Option Response, m.shiftCycle.queue = m.queue ++ new.toList := by
  by_cases last : m.cnt = 1#5
  · cases fin : m.fin with
    | false => rw [Sequencer.shiftCycle_of_last_byte last fin]; exact ⟨none, (List.append_nil _).symm⟩
    | true => rw [Sequencer.shiftCycle_of_last_final last fin]; exact ⟨some _, rfl⟩
  · rw [Sequencer.shiftCycle_of_more last]; exact ⟨none, (List.append_nil _).symm⟩

/-- Without reset an edge removes the word delivered and enqueues at most one word, behind the others (R58, R120). -/
theorem Sequencer.edge_queue {m : Sequencer} {p : Ports} (hr : p.rst = false) :
    ∃ new : Option Response, (m.edge p).queue = (m.taken p).queue ++ new.toList := by
  cases phase : m.phase with
  | idle =>
    rw [Sequencer.edge_of_idle hr phase]
    cases m.accepts p with
    | false => exact ⟨none, (List.append_nil _).symm⟩
    | true => exact (m.taken p).accept_queue (decode p.cmd)
  | shift =>
    rw [Sequencer.edge_of_shift hr phase]
    exact (m.taken p).shiftCycle_queue

/-- While the host is not ready no word is taken (R58). -/
theorem Sequencer.taken_of_not_ready {m : Sequencer} {p : Ports} (h : p.rspReady = false) : m.taken p = m := by
  simp [Sequencer.taken, Sequencer.delivers, h]

/-- A host that is ready is given the oldest word (R58). -/
theorem Sequencer.deliveredWord_of_ready {m : Sequencer} {p : Ports} {v : Response} {waiting : List Response}
    (ready : p.rspReady = true) (queue : m.queue = v :: waiting) : m.deliveredWord p = [v] := by
  simp [Sequencer.deliveredWord, Sequencer.delivers, Sequencer.rspValid, Sequencer.rsp, ready, queue]

/-- An edge that accepts nothing looks at `rst` and `rsp_ready` alone (R57). -/
theorem Sequencer.edge_congr_of_not_accepts {m : Sequencer} {p q : Ports} (rst : p.rst = q.rst)
    (ready : p.rspReady = q.rspReady) (hp : m.accepts p = false) (hq : m.accepts q = false) : m.edge p = m.edge q := by
  have taken : m.taken p = m.taken q := by simp [Sequencer.taken, Sequencer.delivers, ready]
  cases hr : q.rst with
  | true => simp [Sequencer.edge, rst, hr]
  | false =>
    cases phase : m.phase with
    | idle => rw [Sequencer.edge_of_idle (rst.trans hr) phase, Sequencer.edge_of_idle hr phase, hp, hq, taken]; rfl
    | shift => rw [Sequencer.edge_of_shift (rst.trans hr) phase, Sequencer.edge_of_shift hr phase, taken]

end Sys2Proof.Machine
end

section
/-! THEOREMS. The statements about command words, scripts and handshakes (30_encoding.md), settled from the lemmas above. -/

namespace Sys2Proof.Machine

/-- Settles O2: no command loses a bit of its operand, by `decode_encode`. -/
theorem decodeOfEncodeIsTheCommand : Obligations.DecodeOfEncodeIsTheCommand :=
  fun i _ => decode_encode i

/-- Settles O39: a step is an event of the host or none, and events keep the responses 16-bit numbers. -/
theorem responsesFitIsKeptByEveryStep : Obligations.ResponsesFitIsKeptByEveryStep := by
  intro s t fit h
  obtain rfl := following_eq_of_step h
  cases input : s.input with
  | nil => rwa [following_of_no_input input]
  | cons e rest =>
    rw [following_of_input input]
    exact responsesFit_afterEvent (s := { s with input := rest }) fit e

/-- Settles O3, by `encode_decode` and the canonicity of every word the encoder gives. -/
theorem encodeOfDecodeClearsReservedBits : Obligations.EncodeOfDecodeClearsReservedBits :=
  fun w => ⟨encode_decode w, isCanonical_encode (decode w), encode_decode_of_isCanonical⟩

/-- Settles O4, by cases on the opcode: the rows' patterns are the four opcodes. -/
theorem everyWordMeetsExactlyOneOpcodeRow : Obligations.EveryWordMeetsExactlyOneOpcodeRow := by
  intro w
  rw [filter_opcodeTable]
  rcases op_cases (opField w) with h | h | h | h
  · rw [h, decode_of_op_crcInit h]; exact ⟨_, rfl, rfl⟩
  · rw [h, decode_of_op_crcByte h]; exact ⟨_, rfl, rfl⟩
  · rw [h, decode_of_op_crcFinal h]; exact ⟨_, rfl, rfl⟩
  · rw [h, decode_of_op_lzc h]; exact ⟨_, rfl, rfl⟩

/-- Settles O5: the words decode alike. -/
theorem reservedBitsChangeNothing : Obligations.ReservedBitsChangeNothing := by
  intro w v agree s
  rw [step_present, step_present, decode_eq_of_usedBits_eq agree]

/-- Settles O31: of the counts, all at most 32, only that of zero is 32. -/
theorem responsesAreZeroExtended : Obligations.ResponsesAreZeroExtended := by
  refine ⟨fun c => ⟨checksumResponse_low c, checksumResponse_high c⟩, fun x => ?count⟩
  case count =>
    exact ⟨toNat_countResponse (lzc32_le x), countResponse_high _,
      (countResponse_bit_five (lzc32_le x)).trans (lzc32_eq_32_iff x)⟩

/-- Settles O6: the spelling is read back digit by digit; the last eight digits spell `data`. -/
theorem spellingReadsBackAsTheWord : Obligations.SpellingReadsBackAsTheWord := by
  intro w
  refine ⟨readSpelling_spell w, rfl, rfl, ?data, by decide, rfl, rfl⟩
  case data => rw [foldl_tail_spelledDigits, Nat.mul_zero, Nat.zero_add]

/-- Settles O7: one clause for each kind of number, and the check of a script line. -/
theorem numbersAreRefusedNotTruncated : Obligations.NumbersAreRefusedNotTruncated := by
  refine ⟨fun n => ⟨fun h => ?word, transcribeWord_of_le⟩, fun n => ⟨fun h => ?byte, transcribeByte_of_le⟩,
    fun n => ⟨fun h => ?signed, fun h => ?refused⟩, SourceCmd.wf_iff_expands⟩
  case word => exact ⟨_, transcribeWord_of_lt h, Nat.mod_eq_of_lt h⟩
  case byte => exact ⟨_, transcribeByte_of_lt h, Nat.mod_eq_of_lt h⟩
  case signed => exact ⟨_, if_pos (fits_signed_iff.2 h), BitVec.toInt_ofInt_eq_self (by decide) h.1 h.2⟩
  case refused => exact if_neg fun fits => by have := fits_signed_iff.1 fits; omega

/-- Settles O52: an edge keeps the words not delivered, in order, and the oldest is delivered to a host that is ready. -/
theorem presentedResponseIsStableUntilTaken : Obligations.PresentedResponseIsStableUntilTaken := by
  intro m p v waiting hr queue
  obtain ⟨new, after⟩ := Sequencer.edge_queue (m := m) hr
  constructor
  · intro notReady
    rw [Sequencer.taken_of_not_ready notReady, queue] at after
    simp [Sequencer.rspValid, Sequencer.rsp, after]
  · intro ready
    have word := Sequencer.deliveredWord_of_ready ready queue
    have order := m.deliveredWord_append_taken p
    rw [word, queue] at order
    obtain rfl : (m.taken p).queue = waiting := List.tail_eq_of_cons_eq order
    rw [after]
    exact ⟨word, List.prefix_append _ _, by simp [new.length_toList_le]⟩

/-- Settles O1, each word by its opcode row. -/
theorem specWordsDecodeToTheirCommands : Obligations.SpecWordsDecodeToTheirCommands :=
  ⟨decode_of_op_crcInit rfl, decode_of_op_crcInit rfl, decode_of_op_crcByte rfl, decode_of_op_crcByte rfl,
    decode_of_op_crcByte rfl, decode_of_op_crcFinal rfl, decode_of_op_crcFinal rfl, decode_of_op_lzc rfl,
    decode_of_op_lzc rfl⟩

/-- Settles O8: the words of a script are words the encoder gives. -/
theorem scriptsAssembleToCanonicalWords : Obligations.ScriptsAssembleToCanonicalWords := by
  intro lines words assembled w hw
  obtain ⟨i, rfl⟩ := exists_encode_of_mem_assembleScript assembled hw
  exact isCanonical_encode i

/-- Settles O34: an accepted word and a presented word are executed alike. -/
theorem stepExecutesTheDecodedWord : Obligations.StepExecutesTheDecodedWord := by
  constructor
  · intro s w rest input
    rw [step_eq_following, following_of_input input, exec_eq_after]
    rfl
  · intro s nbits n i h
    obtain ⟨w, rfl, presented⟩ := withFetchWord_of_decodeTableWord h s
    rw [presented, step_present]

/-- Settles O35, by cases on what waits. -/
theorem stepDeliversTheOldestResponse : Obligations.StepDeliversTheOldestResponse := by
  refine ⟨fun s v waiting rest input queue => ?taken, fun s rest input queue => ?noneWaiting, fun s input => ?noEvent⟩
  case taken =>
    rw [step_eq_following, following_of_input input]
    exact congrArg _ (State.deliver_of_waiting queue)
  case noneWaiting =>
    rw [step_eq_following, following_of_input input]
    exact congrArg _ (State.deliver_of_empty queue)
  case noEvent => rw [step_eq_following, following_of_no_input input]

/-- Settles O51: the two edges have the same `rst` and `rsp_ready`. -/
theorem unacceptedWordsHaveNoEffect : Obligations.UnacceptedWordsHaveNoEffect :=
  fun _ _ _ _ h h' => Sequencer.edge_congr_of_not_accepts rfl rfl h' h

end Sys2Proof.Machine
end

section
/-! SUPPORT. The bit-step: its transient, its overflow test, its bits, and its linearity over XOR (R61 to R64, R76). -/

namespace Sys2Proof.Machine

/-- The transient `t` of a bit-step, before the overflow test (R11, R61). -/
def transient (r : RegWord) (b : Bool) : WideWord := (r.setWidth 17 <<< 1) ||| (BitVec.ofBool b).setWidth 17

/-- The bit-step by its transient (R61). -/
theorem bitstep_eq_transient (r : RegWord) (b : Bool) : bitstep r b =
    if overflow (transient r b) then (transient r b &&& Config.mask).setWidth 16 ^^^ Config.poly
    else (transient r b).setWidth 16 := rfl

/-- Taking in the message bit is adding it: the shift has cleared bit 0 (R62). -/
theorem shiftLeft_one_or_toNat (n : Nat) (b : Bool) : (n <<< 1) ||| b.toNat = 2 * n + b.toNat := by
  rw [← Nat.shiftLeft_add_eq_or_of_lt b.toNat_lt, Nat.shiftLeft_eq, Nat.mul_comm]

/-- No bit is lost from the transient: 17 bits are enough (R11, R62). -/
theorem toNat_transient (r : RegWord) (b : Bool) : (transient r b).toNat = (r.toNat <<< 1) ||| b.toNat := by
  have hr := r.isLt
  have hb := b.toNat_lt
  have shifted : (r.setWidth 17 <<< 1).toNat = r.toNat <<< 1 := by
    rw [BitVec.toNat_shiftLeft, BitVec.toNat_setWidth, Nat.shiftLeft_eq, Nat.shiftLeft_eq]
    omega
  have message : ((BitVec.ofBool b).setWidth 17).toNat = b.toNat := by
    rw [BitVec.toNat_setWidth, BitVec.toNat_ofBool]
    omega
  rw [transient, BitVec.toNat_or, shifted, message]

/-- The overflow test as the comparison of numbers it is (R13, R61). -/
theorem overflow_iff (t : WideWord) : overflow t = true ↔ 0xFFFF < t.toNat := decide_eq_true_iff

/-- Masking the transient is dropping its top bit (R61). -/
theorem setWidth_and_mask (t : WideWord) : (t &&& Config.mask).setWidth 16 = t.setWidth 16 := by
  apply BitVec.eq_of_getLsbD_eq
  intro i hi
  have mask : ∀ i < 16, Config.mask.getLsbD i = true := by decide
  simp [mask i hi, hi]

/-- The bit-step on numbers (R61, R62). -/
theorem toNat_bitstep (r : RegWord) (b : Bool) : (bitstep r b).toNat =
    if (r.toNat <<< 1) ||| b.toNat > 0xFFFF then (((r.toNat <<< 1) ||| b.toNat) &&& 0xFFFF) ^^^ 0x1021
    else (r.toNat <<< 1) ||| b.toNat := by
  have mask : (r.toNat <<< 1 ||| b.toNat) &&& 0xFFFF = (r.toNat <<< 1 ||| b.toNat) % 2 ^ 16 :=
    Nat.and_two_pow_sub_one_eq_mod _ 16
  rw [bitstep_eq_transient, mask, ← toNat_transient]
  by_cases h : 0xFFFF < (transient r b).toNat
  · rw [if_pos ((overflow_iff _).2 h), if_pos h, setWidth_and_mask]
    rfl
  · rw [if_neg fun overflows => h ((overflow_iff _).1 overflows), if_neg h]
    exact Nat.mod_eq_of_lt (by omega)

/-- The low bits of the transient: the register shifted, with the message bit at bit 0 (R63). -/
theorem setWidth_transient (r : RegWord) (b : Bool) :
    (transient r b).setWidth 16 = (r <<< 1) ||| (BitVec.ofBool b).setWidth 16 := by
  apply BitVec.eq_of_getLsbD_eq
  intro i hi
  simp [transient, hi]

/-- The transient overflows exactly when the bit that leaves `reg` is set (R63). -/
theorem overflow_transient (r : RegWord) (b : Bool) : overflow (transient r b) = r.getLsbD 15 := by
  rw [Bool.eq_iff_iff, overflow_iff, toNat_transient, shiftLeft_one_or_toNat, BitVec.getLsbD_last r, decide_eq_true_iff]
  have := b.toNat_lt
  omega

/-- The bit-step in closed form (R63). -/
theorem bitstep_eq_bitstepClosed (r : RegWord) (b : Bool) : bitstep r b = bitstepClosed r b := by
  rw [bitstep_eq_transient, overflow_transient, setWidth_and_mask, setWidth_transient, bitstepClosed]
  split
  · rfl
  · exact BitVec.xor_zero.symm

/-- The set bits of `POLY` (R60, R64). -/
theorem getLsbD_poly : ∀ i < 16, Config.poly.getLsbD i = decide (i = 0 ∨ i = 5 ∨ i = 12) := by decide

/-- Bit by bit, the bit-step is a shift register with feedback taps (R64). -/
theorem getLsbD_bitstep (r : RegWord) (b : Bool) {i : Nat} (hi : i < 16) :
    (bitstep r b).getLsbD i = bitstepTap r b i := by
  have shifted : ((r <<< 1) ||| (BitVec.ofBool b).setWidth 16).getLsbD i = if i = 0 then b else r.getLsbD (i - 1) := by
    cases i with
    | zero => simp
    | succ i => simp [hi, BitVec.getLsbD_eq_getElem (show i < 16 by omega)]
  have feedback : (if r.getLsbD 15 then Config.poly else 0x0000#16).getLsbD i =
      (r.getLsbD 15 && decide (i = 0 ∨ i = 5 ∨ i = 12)) := by
    cases r.getLsbD 15 <;> simp [getLsbD_poly i hi]
  rw [bitstep_eq_bitstepClosed, bitstepClosed, BitVec.getLsbD_xor, shifted, feedback, bitstepTap]
  by_cases zero : i = 0
  · simp [zero]
  · by_cases tap : i = 5 ∨ i = 12 <;> simp [zero, tap]

/-- The bit-step is linear over XOR: every flip-flop's input is a XOR of bits (R64, R76). -/
theorem bitstep_xor (r r' : RegWord) (b b' : Bool) : bitstep (r ^^^ r') (b ^^ b') = bitstep r b ^^^ bitstep r' b' := by
  apply BitVec.eq_of_getLsbD_eq
  intro i hi
  simp only [BitVec.getLsbD_xor, getLsbD_bitstep _ _ hi, bitstepTap]
  split
  · simp only [Bool.xor_assoc, Bool.xor_left_comm]
  · split
    · simp only [Bool.xor_assoc, Bool.xor_left_comm]
    · rfl

/-- A bit-step loses nothing: bit 0 of the result tells the bit that left `reg`, the others those that stayed (R63). -/
theorem bitstep_injective (b : Bool) : Function.Injective fun r => bitstep r b := by
  intro r r' h
  have bits (i : Nat) (hi : i < 16) : bitstepTap r b i = bitstepTap r' b i := by
    rw [← getLsbD_bitstep r b hi, ← getLsbD_bitstep r' b hi]
    exact congrArg (BitVec.getLsbD · i) h
  have top : r.getLsbD 15 = r'.getLsbD 15 := by simpa [bitstepTap] using bits 0 (by decide)
  apply BitVec.eq_of_getLsbD_eq
  intro i hi
  by_cases isTop : i = 15
  · rw [isTop, top]
  · have next := bits (i + 1) (by omega)
    simp only [bitstepTap, top, Nat.succ_ne_zero, if_false, Nat.add_sub_cancel] at next
    split at next
    · exact Bool.xor_left_inj.1 next
    · exact next

end Sys2Proof.Machine
end

section
/-! SUPPORT. The byte-step: linear over XOR, one to one, a shift of a small register, and by the table (R65, R66, R76). -/

namespace Sys2Proof.Machine

/-- Folding one-to-one steps over a list is one to one. -/
theorem foldl_injective {α β : Type} {f : α → β → α} (h : ∀ b, Function.Injective fun a => f a b) (l : List β) :
    Function.Injective fun a => l.foldl f a := by
  induction l with
  | nil => exact Function.injective_id
  | cons b rest ih => exact ih.comp (h b)

theorem bytestep_injective (byte : Byte) : Function.Injective fun r => bytestep r byte :=
  foldl_injective bitstep_injective (messageBits byte)

/-- The byte-step is linear over XOR, as each of its bit-steps is (R76). -/
theorem bytestep_xor (r r' : RegWord) (byte byte' : Byte) :
    bytestep (r ^^^ r') (byte ^^^ byte') = bytestep r byte ^^^ bytestep r' byte' := by
  simp [bytestep, messageBits_eq, bitstep_xor]

/-- Linearity with the zero byte on both sides. -/
theorem bytestep_xor_zero (r r' : RegWord) :
    bytestep (r ^^^ r') 0x00#8 = bytestep r 0x00#8 ^^^ bytestep r' 0x00#8 :=
  bytestep_xor r r' 0x00#8 0x00#8

/-- From an empty register the byte-step takes the byte in as it stands (R65). -/
theorem bytestep_zero_left : ∀ byte : Byte, bytestep 0x0000#16 byte = byte.setWidth 16 := by decide +kernel

/-- No bit leaves a register that holds one byte: a zero byte-step only shifts it. -/
theorem bytestep_setWidth_zero : ∀ byte : Byte, bytestep (byte.setWidth 16) 0x00#8 = byte.setWidth 16 <<< 8 := by
  decide +kernel

/-- Each entry of the printed table is the zero byte-step of its index in the top byte (R66). -/
theorem tableEntry_eq_bytestep : ∀ h : Byte, tableEntry h = bytestep (h.setWidth 16 <<< 8) 0x00#8 := by decide +kernel

/-- The message byte enters a byte-step by XOR, below the feedback. -/
theorem bytestep_eq_zero_xor (r : RegWord) (byte : Byte) :
    bytestep r byte = bytestep r 0x00#8 ^^^ byte.setWidth 16 := by
  rw [← bytestep_zero_left, ← bytestep_xor, BitVec.xor_zero, BitVec.zero_xor]

theorem bytestep_right_injective (r : RegWord) : Function.Injective (bytestep r) := by
  intro byte byte' h
  rw [bytestep_eq_zero_xor, bytestep_eq_zero_xor r byte', BitVec.xor_right_inj] at h
  simpa using congrArg (BitVec.setWidth 8) h

/-- A byte fits below a byte that has moved up: taking it in by OR or by XOR is the same. -/
theorem shiftLeft_eight_or (r : RegWord) (byte : Byte) :
    (r <<< 8) ||| byte.setWidth 16 = (r <<< 8) ^^^ byte.setWidth 16 := by
  apply BitVec.eq_of_getLsbD_eq
  intro i hi
  by_cases low : i < 8
  · simp [low]
  · simp [low, show byte.getLsbD i = false from BitVec.getLsbD_of_ge _ _ (by omega)]

/-- Moving a register up by a byte keeps its low byte only. -/
theorem setWidth_low_shiftLeft_eight (r : RegWord) : (r.extractLsb' 0 8).setWidth 16 <<< 8 = r <<< 8 := by
  apply BitVec.eq_of_getLsbD_eq
  intro i hi
  simp [show i - 8 < 8 by omega, show i - 8 < 16 by omega]

/-- A register is its two bytes, high byte first. -/
theorem high_or_low (r : RegWord) :
    ((r.extractLsb' 8 8).setWidth 16 <<< 8) ||| (r.extractLsb' 0 8).setWidth 16 = r := by
  apply BitVec.eq_of_getLsbD_eq
  intro i hi
  by_cases low : i < 8
  · simp [low, hi]
  · simp [low, hi, show i - 8 < 8 by omega, show 8 + (i - 8) = i by omega]

/-- The byte-step by the printed table (R66): the table answers for the byte that leaves the register, and the rest
is shifted. -/
theorem bytestep_eq_bytestepTable (r : RegWord) (byte : Byte) : bytestep r byte = bytestepTable r byte := by
  have parts : ((r.extractLsb' 8 8).setWidth 16 <<< 8) ^^^ (r.extractLsb' 0 8).setWidth 16 = r :=
    (shiftLeft_eight_or _ _).symm.trans (high_or_low r)
  calc bytestep r byte
    _ = bytestep (((r.extractLsb' 8 8).setWidth 16 <<< 8) ^^^ (r.extractLsb' 0 8).setWidth 16) 0x00#8 ^^^
          byte.setWidth 16 := by rw [parts, ← bytestep_eq_zero_xor]
    _ = tableEntry (r.extractLsb' 8 8) ^^^ (r <<< 8) ^^^ byte.setWidth 16 := by
        rw [bytestep_xor_zero, ← tableEntry_eq_bytestep, bytestep_setWidth_zero, setWidth_low_shiftLeft_eight]
    _ = ((r <<< 8) ||| byte.setWidth 16) ^^^ tableEntry (r.extractLsb' 8 8) := by
        rw [shiftLeft_eight_or, BitVec.xor_assoc, BitVec.xor_comm]

end Sys2Proof.Machine
end

section
/-! SUPPORT. The checksum: zero bytes, two bytes at a time, linearity, and the direct form (R67, R75 to R78, R82). -/

namespace Sys2Proof.Machine

theorem regInit_eq_zero : Config.regInit = 0x0000#16 := rfl

/-- A zero register stays zero over zero bytes (R75). -/
theorem foldl_bytestep_replicate_zero (n : Nat) : (List.replicate n 0x00#8).foldl bytestep 0x0000#16 = 0x0000#16 := by
  induction n with
  | zero => rfl
  | succ n ih => rw [List.replicate_succ, List.foldl_cons, bytestep_zero_left]; exact ih

@[simp] theorem fold_replicate_zero (n : Nat) : fold (List.replicate n 0x00#8) = 0x0000#16 :=
  foldl_bytestep_replicate_zero n

@[simp] theorem flush_zero : flush 0x0000#16 = 0x0000#16 := foldl_bytestep_replicate_zero 2

/-- An all-zero message has checksum zero (R76). -/
theorem crc16_replicate_zero (n : Nat) : crc16 (List.replicate n 0x00#8) = 0x0000#16 := by
  rw [crc16_eq_flush_fold, fold_replicate_zero, flush_zero]

theorem flush_injective : Function.Injective flush := foldl_injective bytestep_injective Config.flushBytes

theorem flush_xor (r r' : RegWord) : flush (r ^^^ r') = flush r ^^^ flush r' := by
  simp only [flush_eq, bytestep_xor_zero]

/-- Two bytes take a register to its flush, XOR the two bytes as they stand (R77, R82). -/
theorem bytestep_bytestep (r : RegWord) (high low : Byte) :
    bytestep (bytestep r high) low = flush r ^^^ ((high.setWidth 16 <<< 8) ||| low.setWidth 16) := by
  rw [bytestep_eq_zero_xor, bytestep_eq_zero_xor r high, bytestep_xor_zero, bytestep_setWidth_zero, ← flush_eq,
    shiftLeft_eight_or, BitVec.xor_assoc]

/-- The fold of one byte is the byte (R82). -/
theorem fold_singleton (byte : Byte) : fold [byte] = byte.setWidth 16 := by
  rw [fold, List.foldl_cons, List.foldl_nil, regInit_eq_zero, bytestep_zero_left]

/-- The fold of two bytes is the two bytes (R82). -/
theorem fold_pair (high low : Byte) : fold [high, low] = (high.setWidth 16 <<< 8) ||| low.setWidth 16 := by
  rw [fold, List.foldl_cons, List.foldl_cons, List.foldl_nil, bytestep_bytestep, regInit_eq_zero, flush_zero,
    BitVec.zero_xor]

/-- The checksum with one byte of the message in view: the bytes after it only go on from its byte-step (R67). -/
theorem crc16_append_cons (before after : List Byte) (byte : Byte) :
    crc16 (before ++ byte :: after) = flush (after.foldl bytestep (bytestep (fold before) byte)) := by
  rw [crc16_eq_flush_fold, fold_append, List.foldl_cons]

/-- The byte-steps over two messages of one length are linear over XOR (R76). -/
theorem foldl_bytestep_xor {p q : List Byte} (h : p.length = q.length) (r r' : RegWord) :
    (List.zipWith (· ^^^ ·) p q).foldl bytestep (r ^^^ r') = p.foldl bytestep r ^^^ q.foldl bytestep r' := by
  induction p generalizing q r r' with
  | nil => rw [List.length_eq_zero_iff.1 h.symm]; rfl
  | cons byte p ih =>
    obtain ⟨byte', q, rfl⟩ := List.exists_cons_of_length_eq_add_one h.symm
    rw [List.zipWith_cons_cons, List.foldl_cons, bytestep_xor]
    exact ih (Nat.succ.inj h) _ _

/-- One shift of the direct form is a bit-step with message bit 0 (R63, R78). -/
theorem directShift_eq_bitstep (d : RegWord) : directShift d = bitstep d false := by
  rw [bitstep_eq_bitstepClosed, directShift, bitstepClosed]
  split <;> simp

/-- One byte of the direct form is a zero byte-step once the byte is in the top of the register (R78). -/
theorem directByte_eq_bytestep (d : RegWord) (byte : Byte) :
    directByte d byte = bytestep (d ^^^ (byte.setWidth 16 <<< 8)) 0x00#8 := by
  simp only [directByte, directShift_eq_bitstep]
  rfl

/-- The direct form is always the two zero byte-steps ahead (R78). -/
theorem directByte_flush (r : RegWord) (byte : Byte) : directByte (flush r) byte = flush (bytestep r byte) := by
  have entered : flush (byte.setWidth 16) = bytestep (byte.setWidth 16 <<< 8) 0x00#8 := by
    rw [flush_eq, bytestep_setWidth_zero]
  rw [directByte_eq_bytestep, bytestep_xor_zero, ← entered, bytestep_eq_zero_xor r byte, flush_xor]
  rfl

/-- The direct form over a message, from a register that is already flushed (R78). -/
theorem foldl_directByte_flush (p : List Byte) (r : RegWord) :
    p.foldl directByte (flush r) = flush (p.foldl bytestep r) := by
  induction p generalizing r with
  | nil => rfl
  | cons byte rest ih => rw [List.foldl_cons, directByte_flush, ih, List.foldl_cons]

end Sys2Proof.Machine
end

section
/-! SUPPORT. The block under a host that sends a list of commands, `LZC` anywhere among them (R71, R82, R92). -/

namespace Sys2Proof.Machine

/-- The events of a host that sends a list of commands make the block execute those commands (R53, R57). -/
@[simp] theorem filterMap_command?_commandEvents (commands : List Instr) :
    (commandEvents commands).filterMap HostEvent.command? = commands := by
  simp [commandEvents, List.filterMap_map, Function.comp_def]

theorem reset_not_mem_commandEvents (commands : List Instr) : HostEvent.reset ∉ commandEvents commands := by
  simp [commandEvents]

/-- Sending a list of commands takes the block through them. -/
theorem foldl_afterEvent_commandEvents (commands : List Instr) (s : State) :
    (commandEvents commands).foldl State.afterEvent s = afterCommands s commands := by
  simp [commandEvents, afterCommands, List.foldl_map, State.afterEvent]

/-- A host that sends a list of commands and nothing else ends its run in the state they lead to. -/
theorem runsTo_of_commandEvents {s : State} {commands : List Instr} (h : s.input = commandEvents commands) :
    RunsTo commands.length s { afterCommands s commands with input := [] } := by
  have length : s.input.length = commands.length := by rw [h, commandEvents, List.length_map]
  rw [← foldl_afterEvent_commandEvents, ← h, ← length]
  exact runsTo_foldl_afterEvent s.input s

/-- The stream after a list of commands: what they emit is added, in their order (R25, R41). -/
theorem afterCommands_stream (s : State) (commands : List Instr) :
    (afterCommands s commands).stream = s.stream ++ (emissions s commands).map Prod.snd := by
  rw [← foldl_afterEvent_commandEvents, stream_foldl_afterEvent (reset_not_mem_commandEvents commands),
    filterMap_command?_commandEvents]

/-- Equal registers stay equal over a list of commands (R20). -/
theorem afterCommands_reg_congr (commands : List Instr) {s s' : State} (h : s.reg = s'.reg) :
    (afterCommands s commands).reg = (afterCommands s' commands).reg := by
  induction commands generalizing s s' with
  | nil => exact h
  | cons i rest ih => exact ih (after_reg_congr i h)

/-- `LZC` commands leave no trace in `reg` (R82, R92). -/
theorem afterCommands_filter_reg (s : State) (commands : List Instr) :
    (afterCommands s (commands.filter isCrcCommand)).reg = (afterCommands s commands).reg := by
  induction commands generalizing s with
  | nil => rfl
  | cons i rest ih =>
    cases i with
    | lzc x => exact (ih s).trans (afterCommands_reg_congr rest (s' := after (.lzc x) s) rfl)
    | crcInit | crcByte | crcFinal => exact ih _

/-- Removing the `LZC` commands removes exactly their responses (R92). -/
theorem emissions_filter_isCrcCommand (s : State) (commands : List Instr) :
    emissions s (commands.filter isCrcCommand) = (emissions s commands).filter fun e => isCrcCommand e.1 := by
  induction commands generalizing s with
  | nil => rfl
  | cons i rest ih =>
    rw [emissions_cons, List.filter_append, ← ih]
    cases i with
    | lzc x => exact responseHistoryNeverInfluencesLaterResponses s (after (.lzc x) s) (rest.filter isCrcCommand) rfl
    | crcInit | crcByte | crcFinal => rw [List.filter_cons_of_pos rfl, emissions_cons]; rfl

/-- After `CRC_INIT` and the bytes of a message `reg` is their fold, from every state (R82). -/
theorem afterCommands_crcInit_crcByte_reg (s : State) (bytes : List Byte) :
    (afterCommands s (.crcInit :: bytes.map .crcByte)).reg = fold bytes :=
  afterCommands_crcByte_reg (after .crcInit s) bytes

/-- A list of commands that ends with `CRC_FINAL` ends with `reg = 0` (R70). -/
theorem afterCommands_append_crcFinal_reg (s : State) (commands : List Instr) :
    (afterCommands s (commands ++ [.crcFinal])).reg = 0x0000#16 := by
  rw [afterCommands, List.foldl_append]
  rfl

/-- `CRC_INIT` from `reg = 0` makes no difference to what is emitted after it (R68). -/
theorem emissions_crcInit_cons {s : State} (h : s.reg = 0x0000#16) (commands : List Instr) :
    emissions s (.crcInit :: commands) = emissions s commands := by
  rw [emissions_cons]
  exact responseHistoryNeverInfluencesLaterResponses (after .crcInit s) s commands h.symm

end Sys2Proof.Machine
end

section
/-! SUPPORT. The three commands of the CRC16 Engine: what each answers, and its canonical word (R68, R69, R70). -/

namespace Sys2Proof.Machine

theorem exec_crcInit (s : State) : exec .crcInit s = .next { s with reg := 0x0000#16 } := rfl

theorem exec_crcByte (byte : Byte) (s : State) :
    exec (.crcByte byte) s = .next { s with reg := bytestep s.reg byte } := rfl

theorem exec_crcFinal (s : State) : exec .crcFinal s = .next
    { s with reg := 0x0000#16, rspQueue := s.rspQueue ++ [(flush s.reg).setWidth 32] } := rfl

/-- Writing the value `reg` holds changes nothing. -/
theorem State.with_reg_of_eq {s : State} {v : RegWord} (h : s.reg = v) : { s with reg := v } = s := by
  subst h; rfl

/-- From `reg = 0`, `CRC_FINAL` answers zero and leaves `reg` as it is (R70). -/
theorem exec_crcFinal_of_reg_zero {s : State} (h : s.reg = 0x0000#16) :
    exec .crcFinal s = .next { s with rspQueue := s.rspQueue ++ [0x00000000#32] } := by
  rw [exec_crcFinal, h, flush_zero, BitVec.setWidth_zero, ← h]

/-- The canonical word of `CRC_BYTE`: `op = 01` above the byte (R69). -/
theorem encode_crcByte (byte : Byte) : encode (.crcByte byte) = 0x100000000#34 ||| byte.setWidth 34 := by
  rw [encode, assemble, BitVec.append_def]
  apply BitVec.eq_of_toNat_eq
  simp

end Sys2Proof.Machine
end

section
/-! THEOREMS. The statements about the CRC16 Engine (40_crc16.md), settled from the lemmas above. -/

namespace Sys2Proof.Machine

/-- Settles O9, by the bit-step on numbers; the corner cases are computed. -/
theorem bitstepIsShiftTestMaskXor : Obligations.BitstepIsShiftTestMaskXor :=
  ⟨fun r b => ⟨shiftLeft_one_or_toNat r.toNat b, toNat_bitstep r b⟩, by decide⟩

/-- Settles O10, by the transient's top bit and the closed form. -/
theorem feedbackIsTheOldTopBit : Obligations.FeedbackIsTheOldTopBit :=
  fun r b => ⟨overflow_transient r b, bitstep_eq_bitstepClosed r b⟩

/-- Settles O11: the closed form read at bit `i`. -/
theorem bitstepIsShiftRegisterWithTaps : Obligations.BitstepIsShiftRegisterWithTaps :=
  fun r b _ hi => getLsbD_bitstep r b hi

/-- Settles O13, by linearity: the table answers for the byte that leaves the register. -/
theorem tableFormEqualsBytestep : Obligations.TableFormEqualsBytestep :=
  ⟨bytestep_eq_bytestepTable, by decide +kernel, tableEntry_eq_bytestep, by decide +kernel⟩

/-- Settles O14: the byte-steps over the extended buffer are the bit-steps over its bits, eight for each byte. -/
theorem checksumRunsOverTheExtendedBuffer : Obligations.ChecksumRunsOverTheExtendedBuffer := by
  refine ⟨fun p => ⟨crc16_eq_fold_extended p, ?bits, ?count⟩, by decide +kernel⟩
  case bits =>
    rw [List.foldl_flatMap]
    exact crc16_eq_fold_extended p
  case count =>
    simp [List.length_flatMap, extendedBuffer, Config.flushBytes]
    ring

/-- Settles O16: zero bytes in front leave the register at zero, where every message begins. -/
theorem leadingZeroBytesAreInvisible : Obligations.LeadingZeroBytesAreInvisible := by
  refine ⟨bytestep_zero_left 0x00#8, fun n p => ?leading, by decide +kernel⟩
  case leading =>
    rw [crc16_eq_flush_fold, fold_append, fold_replicate_zero]
    rfl

/-- Settles O17: linearity goes from the bit-step to the byte-step, to the fold of a message and to its flush. -/
theorem checksumIsLinear : Obligations.ChecksumIsLinear := by
  refine ⟨bitstep_xor, fun p q length => ?checksum, crc16_replicate_zero⟩
  case checksum =>
    rw [crc16_eq_flush_fold, crc16_eq_flush_fold, crc16_eq_flush_fold, ← flush_xor]
    exact congrArg flush (foldl_bytestep_xor length Config.regInit Config.regInit)

/-- Settles O18: the two bytes sent are XORed into the flush of the message, which is the checksum they spell. -/
theorem messageWithItsChecksumHasZeroResidue : Obligations.MessageWithItsChecksumHasZeroResidue := by
  intro p
  have cancels : fold (p ++ [(crc16 p).extractLsb' 8 8, (crc16 p).extractLsb' 0 8]) = 0x0000#16 := by
    rw [fold_append, List.foldl_cons, List.foldl_cons, List.foldl_nil, bytestep_bytestep, high_or_low,
      ← crc16_eq_flush_fold, BitVec.xor_self]
  rw [crc16_eq_flush_fold, cancels, flush_zero]

/-- Settles O19: the direct form keeps the flushed register all along, and the flushed zero is zero. -/
theorem directFormEqualsChecksum : Obligations.DirectFormEqualsChecksum := by
  intro p
  calc crc16Direct p
    _ = p.foldl directByte (flush 0x0000#16) := by rw [flush_zero, crc16Direct]
    _ = crc16 p := foldl_directByte_flush p 0x0000#16

/-- Settles O20: the flipped byte changes the register, and every later byte-step is one to one. -/
theorem everySingleBitFlipChangesTheChecksum : Obligations.EverySingleBitFlipChangesTheChecksum := by
  intro p i k hi hk same
  obtain ⟨before, byte, rest, rfl, -, flipped⟩ :=
    List.exists_of_modify (fun byte : Byte => byte ^^^ (1#8 <<< k)) hi
  rw [flipped, crc16_append_cons, crc16_append_cons] at same
  have sameByte : byte ^^^ (1#8 <<< k) = byte :=
    bytestep_right_injective _ (foldl_injective bytestep_injective rest (flush_injective same))
  have oneBit : ∀ k < 8, 1#8 <<< k ≠ 0#8 := by decide
  exact oneBit k hk (by simpa using sameByte)

/-- Settles O43: `LZC` commands leave no trace in `reg`, and the bytes are folded from the zero of `CRC_INIT`. -/
theorem midMessageRegisterIsTheFold : Obligations.MidMessageRegisterIsTheFold := by
  refine ⟨fun s bytes commands sent input => ⟨_, runsTo_of_commandEvents input, ?reg⟩, rfl, fold_append_byte,
    fun p => flush_eq (fold p), fold_singleton, fold_pair, by decide +kernel⟩
  case reg =>
    show (afterCommands s commands).reg = fold bytes
    rw [← afterCommands_filter_reg, sent, afterCommands_crcInit_crcByte_reg]

/-- Settles O44: without its `LZC` commands the list is the expansion of `CRC16`, or that expansion after a `CRC_INIT`
that would change nothing. -/
theorem crc16MacroAnswersTheChecksum : Obligations.Crc16MacroAnswersTheChecksum := by
  intro s bytes commands sent input
  refine ⟨_, runsTo_of_commandEvents input, ?reg, ?stream, ?answer⟩
  case reg =>
    show (afterCommands s commands).reg = 0x0000#16
    rw [← afterCommands_filter_reg]
    rcases sent with sent | ⟨-, sent⟩
    · rw [sent]
      exact afterCommands_append_crcFinal_reg s (.crcInit :: bytes.map .crcByte)
    · rw [sent]
      exact afterCommands_append_crcFinal_reg s (bytes.map .crcByte)
  case stream =>
    rw [State.stream_with_input, afterCommands_stream]
  case answer =>
    rw [← emissions_filter_isCrcCommand]
    rcases sent with sent | ⟨zero, sent⟩
    · rw [sent, emissions_crc16Commands]
      rfl
    · rw [sent, ← emissions_crcInit_cons zero]
      exact emissions_crc16Commands s bytes

/-- Settles O12: the message bits of a byte, written out. -/
theorem bytestepTakesBitSevenFirst : Obligations.BytestepTakesBitSevenFirst :=
  ⟨fun _ _ => rfl, bytestep_zero_left, by decide +kernel⟩

/-- Settles O15: the first two messages are zero bytes only; the third is computed. -/
theorem shortMessagesHaveTheDerivedChecksums : Obligations.ShortMessagesHaveTheDerivedChecksums :=
  ⟨crc16_replicate_zero 0, crc16_replicate_zero 1, by decide +kernel⟩

/-- Settles O27: what `CRC_INIT` answers does not look at `reg`. -/
theorem crcInitCompletesWithRegZero : Obligations.CrcInitCompletesWithRegZero := by
  refine ⟨exec_crcInit, by decide, fun _ => decode_of_op_crcInit, fun s t first => ?twice, fun s zero => ?unchanged⟩
  case twice =>
    obtain rfl := after_eq_of_exec first
    exact exec_crcInit _
  case unchanged => rw [exec_crcInit, State.with_reg_of_eq zero]

/-- Settles O28: the corner case and the first example start from zero, where a byte is taken in as it stands; the other
two examples are computed. -/
theorem crcByteCompletesWithBytestep : Obligations.CrcByteCompletesWithBytestep := by
  have second : bytestep 0x0031#16 0x32#8 = 0x3132#16 := by decide +kernel
  have third : bytestep 0x3132#16 0x33#8 = 0x1441#16 := by decide +kernel
  refine ⟨exec_crcByte, encode_crcByte, fun _ => decode_of_op_crcByte, fun s zero => ?unchanged, by decide, fun s => ?first,
    fun s => ?second, fun s => ?third⟩
  case unchanged =>
    rw [exec_crcByte, zero, bytestep_zero_left]
    exact congrArg _ (State.with_reg_of_eq zero)
  case first => rw [exec_crcByte, bytestep_zero_left]; rfl
  case second => rw [exec_crcByte, second]
  case third => rw [exec_crcByte, third]

/-- Settles O29: the flush of `reg`; a second `CRC_FINAL` flushes the zero the first one left. -/
theorem crcFinalCompletesWithChecksumAndClears : Obligations.CrcFinalCompletesWithChecksumAndClears := by
  have first : bytestep 0xBEEF#16 0x00#8 = 0xA915#16 := by decide +kernel
  have second : bytestep 0xA915#16 0x00#8 = 0x31C3#16 := by decide +kernel
  refine ⟨exec_crcFinal, by decide, fun _ => decode_of_op_crcFinal, fun _ => exec_crcFinal_of_reg_zero,
    fun s t final => ?again, first, second, fun s reg => ?exampleValue⟩
  case again =>
    obtain rfl := after_eq_of_exec final
    exact exec_crcFinal_of_reg_zero rfl
  case exampleValue =>
    rw [exec_crcFinal, reg, flush_eq, first, second]
    rfl

end Sys2Proof.Machine
end

section
/-! SUPPORT. The count as a number: 32 less the binary length of the pattern (R85, R93). -/

namespace Sys2Proof.Machine

/-- The binary length of a number written above `w` lower bits. -/
theorem size_add_two_pow_mul {a b w : Nat} (ha : a ≠ 0) (hb : b < 2 ^ w) : (b + 2 ^ w * a).size = a.size + w := by
  apply le_antisymm
  · have upper : a < 2 ^ a.size := Nat.lt_size_self a
    rw [Nat.size_le, pow_add]
    nlinarith
  · obtain ⟨n, hn⟩ := Nat.exists_eq_succ_of_ne_zero (mt Nat.size_eq_zero.1 ha)
    have lower : 2 ^ n ≤ a := Nat.lt_size.1 (by omega)
    rw [hn, Nat.succ_add, Nat.succ_le_iff, Nat.lt_size, pow_add]
    nlinarith

/-- The loop with `n` bits left to look at counts 32 less the length of those bits (R85). -/
theorem lzcFrom_eq_sub_size (x : Pattern) {n : Nat} (h : n ≤ 32) : lzcFrom x n = 32 - (x.toNat % 2 ^ n).size := by
  induction n with
  | zero => simp [lzcFrom, Nat.mod_one]
  | succ n ih =>
    rw [lzcFrom_succ, Nat.mod_pow_succ, BitVec.getLsbD, Nat.testBit_eq_decide_div_mod_eq]
    rcases Nat.mod_two_eq_zero_or_one (x.toNat / 2 ^ n) with clear | set
    · simp [clear, ih (Nat.le_of_succ_le h)]
    · have low : x.toNat % 2 ^ n < 2 ^ n := Nat.mod_lt _ (Nat.two_pow_pos n)
      rw [set, size_add_two_pow_mul one_ne_zero low, Nat.size_one, decide_eq_true rfl, if_pos rfl]
      omega

theorem lzc32_eq_sub_size (x : Pattern) : lzc32 x = 32 - x.toNat.size := by
  rw [lzc32, lzcFrom_eq_sub_size x le_rfl, Nat.mod_eq_of_lt x.isLt]

theorem size_toNat_le (x : Pattern) : x.toNat.size ≤ 32 := Nat.size_le.2 x.isLt

/-- A count of at least `k` bounds the unsigned value from above (R93). -/
theorem le_lzc32_iff (x : Pattern) {k : Nat} (h : k ≤ 32) : k ≤ lzc32 x ↔ x.toNat < 2 ^ (32 - k) := by
  have := size_toNat_le x
  rw [lzc32_eq_sub_size, ← Nat.size_le]
  omega

/-- The counts below 32, by ranges of the unsigned value (R93). -/
theorem lzc32_eq_iff (x : Pattern) {k : Nat} (h : k ≤ 31) :
    lzc32 x = k ↔ 2 ^ (31 - k) ≤ x.toNat ∧ x.toNat < 2 ^ (32 - k) := by
  have atLeast := le_lzc32_iff x (k := k) (by omega)
  have more := le_lzc32_iff x (k := k + 1) (by omega)
  rw [show 32 - (k + 1) = 31 - k by omega] at more
  omega

/-- A set bit 31 stops the loop at once (R87). -/
theorem lzc32_of_bit_31 {x : Pattern} (h : x.getLsbD 31 = true) : lzc32 x = 0 :=
  lzcFrom_of_highest x (by decide) h (by omega)

/-- The larger the unsigned value, the smaller the count (R93). -/
theorem lzc32_antitone {x y : Pattern} (h : x.toNat ≤ y.toNat) : lzc32 y ≤ lzc32 x := by
  rw [lzc32_eq_sub_size, lzc32_eq_sub_size]
  exact Nat.sub_le_sub_left (Nat.size_le_size h) 32

theorem lzc32_two_pow {j : Nat} (h : j < 32) : lzc32 (BitVec.ofNat 32 (2 ^ j)) = 31 - j := by
  rw [lzc32_eq_sub_size, BitVec.toNat_ofNat, Nat.mod_eq_of_lt (Nat.pow_lt_pow_right Nat.one_lt_two h), Nat.size_pow]
  omega

/-- `j` set bits have binary length `j` (R93). -/
theorem lzc32_two_pow_sub_one {j : Nat} (h : j ≤ 32) : lzc32 (BitVec.ofNat 32 (2 ^ j - 1)) = 32 - j := by
  have size : (2 ^ j - 1).size = j := by
    cases j with
    | zero => rfl
    | succ j =>
      have low : 2 ^ j - 1 < 2 ^ j := Nat.sub_one_lt (Nat.two_pow_pos j).ne'
      have top : 2 ^ (j + 1) - 1 = 2 ^ j - 1 + 2 ^ j * 1 := by omega
      rw [top, size_add_two_pow_mul one_ne_zero low, Nat.size_one, Nat.add_comm]
  have fits : 2 ^ j - 1 < 2 ^ 32 := Nat.size_le.1 (size.trans_le h)
  rw [lzc32_eq_sub_size, BitVec.toNat_ofNat, Nat.mod_eq_of_lt fits, size]

theorem lzc32_eq_sub_log2 {x : Pattern} (h : x ≠ 0#32) : lzc32 x = 31 - Nat.log2 x.toNat := by
  have pos : x.toNat ≠ 0 := fun zero => h (BitVec.eq_of_toNat_eq zero)
  have small : x.toNat.log2 < 32 := (Nat.log2_lt pos).2 x.isLt
  rw [lzc32_eq_iff x (by omega), show 31 - (31 - x.toNat.log2) = x.toNat.log2 by omega,
    show 32 - (31 - x.toNat.log2) = x.toNat.log2 + 1 by omega]
  exact ⟨Nat.log2_self_le pos, Nat.lt_log2_self⟩

/-- `u32` is the residue modulo 2^32 (R86). -/
theorem toNat_u32 (n : Int) : ((u32 n).toNat : Int) = n % 2 ^ 32 := by
  rw [u32, BitVec.toNat_ofInt]
  exact Int.toNat_of_nonneg (Int.emod_nonneg n (by decide))

/-- A negative operand has its sign bit set (R86). -/
theorem u32_bit_31 {n : Int} (low : -(2 ^ 31) ≤ n) (neg : n < 0) : (u32 n).getLsbD 31 = true := by
  have value := toNat_u32 n
  have msb : (u32 n).msb = true := by
    rw [BitVec.msb_eq_decide, decide_eq_true_iff]
    omega
  exact msb
end Sys2Proof.Machine
end

section
/-! SUPPORT. The reference structures of the count: priority encoder, logarithmic tree and pair merging (R90, R91). -/

namespace Sys2Proof.Machine

theorem highestSetBelow_succ (x : Pattern) (i : Nat) :
    highestSetBelow x (i + 1) = if x.getLsbD i then some i else highestSetBelow x i := rfl

theorem lt_of_highestSetBelow {x : Pattern} {n i : Nat} (h : highestSetBelow x n = some i) : i < n := by
  induction n with
  | zero => cases h
  | succ n ih =>
    rw [highestSetBelow_succ] at h
    split at h
    · obtain rfl := Option.some.inj h
      exact Nat.lt_succ_self n
    · exact Nat.lt_succ_of_lt (ih h)

/-- The loop of R85 and the priority encoder stop at the same bit (R90). -/
theorem lzcFrom_eq_elim_highestSetBelow (x : Pattern) (n : Nat) :
    lzcFrom x n = (highestSetBelow x n).elim 32 (31 - ·) := by
  induction n with
  | zero => rfl
  | succ n ih =>
    rw [lzcFrom_succ, highestSetBelow_succ, ih]
    split <;> rfl

/-- The five bits of `31 - i` are the complement of those of `i` (R90). -/
theorem toNat_not_index {i : Nat} (h : i < 32) : ((~~~(BitVec.ofNat 5 i)).setWidth 6).toNat = 31 - i := by
  revert i; decide

theorem toNat_lzcPriorityBits (x : Pattern) : (lzcPriorityBits x).toNat = lzc32 x := by
  rw [lzc32, lzcFrom_eq_elim_highestSetBelow, lzcPriorityBits]
  cases h : highestSetBelow x 32 with
  | none => rfl
  | some i => exact toNat_not_index (lt_of_highestSetBelow h)

/-- Bits 5:0 of a count response are the count (R51). -/
theorem countResponse_low (n : Nat) : (countResponse n).extractLsb' 0 6 = BitVec.ofNat 6 n :=
  (BitVec.extractLsb'_setWidth_of_le (by decide)).trans BitVec.extractLsb'_eq_self

/-- Shifting out leading zeros takes them off the count (R91). -/
theorem lzc32_shiftLeft {y : Pattern} {w : Nat} (nonzero : lzc32 y < 32) (h : w ≤ lzc32 y) :
    lzc32 (y <<< w) = lzc32 y - w := by
  have pos : y.toNat ≠ 0 := fun zero => by simp [lzc32_eq_sub_size, zero] at nonzero
  have room : y.toNat < 2 ^ (32 - w) := (le_lzc32_iff y (by omega)).1 h
  have value : (y <<< w).toNat = 0 + 2 ^ w * y.toNat := by
    have fits : y.toNat * 2 ^ w < 2 ^ 32 := by
      have := Nat.mul_lt_mul_of_pos_right room (Nat.two_pow_pos w)
      rwa [← pow_add, Nat.sub_add_cancel (by omega)] at this
    rw [BitVec.toNat_shiftLeft, Nat.shiftLeft_eq, Nat.mod_eq_of_lt fits, Nat.zero_add, Nat.mul_comm]
  rw [lzc32_eq_sub_size, lzc32_eq_sub_size, value, size_add_two_pow_mul pos (Nat.two_pow_pos w)]
  omega

/-- The test of a stage: the top `w` bits are zero (R91). -/
theorem ushiftRight_eq_zero_iff (y : Pattern) {w : Nat} (h : w ≤ 32) : y >>> (32 - w) = 0#32 ↔ w ≤ lzc32 y := by
  rw [le_lzc32_iff y h, BitVec.toNat_eq, BitVec.toNat_ushiftRight, Nat.shiftRight_eq_div_pow]
  exact Nat.div_eq_zero_iff_lt (Nat.two_pow_pos _)

/-- What the tree keeps as it works: the zeros counted and those still at the top of what remains add up to the count, and
fewer than `w` of them remain (R91). -/
structure TreeCounts (x : Pattern) (w : Nat) (s : Nat × Pattern) : Prop where
  few : lzc32 s.2 < w
  total : s.1 + lzc32 s.2 = lzc32 x

/-- A stage halves what may remain (R91). -/
theorem TreeCounts.stage {x : Pattern} {w : Nat} {s : Nat × Pattern} (h : TreeCounts x (2 * w) s) (hw : w ≤ 16) :
    TreeCounts x w (treeStage w s) := by
  obtain ⟨few, total⟩ := h
  unfold treeStage
  split
  case isTrue zeros =>
    have counted := (ushiftRight_eq_zero_iff s.2 (by omega)).1 zeros
    have shifted := lzc32_shiftLeft (by omega) counted
    exact ⟨by rw [shifted]; omega, by rw [shifted]; omega⟩
  case isFalse someSet =>
    exact ⟨not_le.1 (mt (ushiftRight_eq_zero_iff s.2 (by omega)).2 someSet), total⟩

theorem lzc32Tree_eq_lzc32 (x : Pattern) : lzc32Tree x = lzc32 x := by
  unfold lzc32Tree
  split
  case isTrue zero => exact ((lzc32_eq_32_iff x).2 zero).symm
  case isFalse nonzero =>
    have start : TreeCounts x 32 (0, x) :=
      ⟨(lzc32_le x).lt_of_ne (mt (lzc32_eq_32_iff x).1 nonzero), Nat.zero_add _⟩
    have after16 := start.stage (w := 16) (by decide)
    have after8 := after16.stage (w := 8) (by decide)
    have after4 := after8.stage (w := 4) (by decide)
    have after2 := after4.stage (w := 2) (by decide)
    obtain ⟨few, total⟩ := after2.stage (w := 1) (by decide)
    omega

/-- The block of `2 ^ k` bits that starts at bit `lo`, as a number. -/
def blockValue (x : Pattern) (k lo : Nat) : Nat := x.toNat / 2 ^ lo % 2 ^ 2 ^ k

theorem blockValue_lt (x : Pattern) (k lo : Nat) : blockValue x k lo < 2 ^ 2 ^ k := Nat.mod_lt _ (Nat.two_pow_pos _)

/-- A block is its lower half with its upper half above it. -/
theorem blockValue_succ (x : Pattern) (k lo : Nat) :
    blockValue x (k + 1) lo = blockValue x k lo + 2 ^ 2 ^ k * blockValue x k (lo + 2 ^ k) := by
  rw [blockValue, pow_succ 2 k, Nat.mul_two, pow_add, Nat.mod_mul, Nat.div_div_eq_div_mul, ← pow_add]
  rfl

/-- The summary of a block: whether it is all zero, and its leading zeros (R91). -/
theorem mergeBlock_eq (x : Pattern) (k lo : Nat) :
    mergeBlock x k lo = (decide (blockValue x k lo = 0), 2 ^ k - (blockValue x k lo).size) := by
  induction k generalizing lo with
  | zero =>
    rw [mergeBlock, BitVec.getLsbD, Nat.testBit_eq_decide_div_mod_eq, blockValue]
    rcases Nat.mod_two_eq_zero_or_one (x.toNat / 2 ^ lo) with clear | set
    · simp [clear]
    · simp [set]
  | succ k ih =>
    rw [mergeBlock, ih, ih, blockValue_succ]
    by_cases upper : blockValue x k (lo + 2 ^ k) = 0
    · have fits : (blockValue x k lo).size ≤ 2 ^ k := Nat.size_le.2 (blockValue_lt x k lo)
      have count : 2 ^ (k + 1) - (blockValue x k lo).size = 2 ^ k + (2 ^ k - (blockValue x k lo).size) := by omega
      simp [upper, count]
    · have count : ∀ n, 2 ^ (k + 1) - (n + 2 ^ k) = 2 ^ k - n := by omega
      rw [size_add_two_pow_mul upper (blockValue_lt x k lo), count]
      simp [upper]

theorem lzc32Merge_eq_lzc32 (x : Pattern) : lzc32Merge x = lzc32 x := by
  have whole : blockValue x 5 0 = x.toNat := by
    rw [blockValue, pow_zero, Nat.div_one]
    exact Nat.mod_eq_of_lt x.isLt
  rw [lzc32Merge, mergeBlock_eq, whole]
  exact (lzc32_eq_sub_size x).symm

end Sys2Proof.Machine
end

section
/-! SUPPORT. The command `LZC`: what it answers, and its canonical word (R87). -/

namespace Sys2Proof.Machine

theorem exec_lzc (x : Pattern) (s : State) :
    exec (.lzc x) s = .next { s with rspQueue := s.rspQueue ++ [countResponse (lzc32 x)] } := rfl

/-- The canonical word of `LZC`: `op = 11` above the operand (R87). -/
theorem encode_lzc (x : Pattern) : encode (.lzc x) = 0x300000000#34 ||| x.setWidth 34 := by
  rw [encode, assemble, BitVec.append_def]
  apply BitVec.eq_of_toNat_eq
  simp

end Sys2Proof.Machine
end

section
/-! THEOREMS. The statements about the Leading-Zero-Count Utility (41_lzc.md), settled from the lemmas above. -/

namespace Sys2Proof.Machine

/-- Settles O21: the loop stops at the first set bit it meets, or runs to its end. -/
theorem lzcCountsZerosAboveTheHighestSetBit : Obligations.LzcCountsZerosAboveTheHighestSetBit := by
  refine fun x => ⟨fun i set above => ?highest, fun clear => lzcFrom_of_clear x 32 fun i _ => clear i, lzc32_le x⟩
  case highest => exact lzcFrom_of_highest x (BitVec.lt_of_getLsbD set) set fun j above_i _ => above j above_i

/-- Settles O22: a negative operand has bit 31 set, where the count stops at once. -/
theorem negativeOperandsCountZero : Obligations.NegativeOperandsCountZero :=
  ⟨toNat_u32, fun _ low neg => ⟨u32_bit_31 low neg, lzc32_of_bit_31 (u32_bit_31 low neg)⟩,
    by decide, lzc32_of_bit_31 rfl, by decide, lzc32_of_bit_31 rfl⟩

/-- Settles O23: the count is 32 less the binary length of the unsigned value. -/
theorem lzcByRanges : Obligations.LzcByRanges :=
  ⟨fun x _ => lzc32_eq_iff x, lzc32_eq_32_iff, fun _ _ => lzc32_antitone, fun _ => lzc32_two_pow,
    fun _ => lzc32_two_pow_sub_one, fun _ => lzc32_eq_sub_log2⟩

/-- Settles O25: the encoder finds the bit the loop stops at. -/
theorem priorityEncoderEqualsLzc : Obligations.PriorityEncoderEqualsLzc := by
  refine fun x => ⟨toNat_lzcPriorityBits x, ?response⟩
  case response => rw [countResponse_low, ← toNat_lzcPriorityBits, BitVec.ofNat_toNat, BitVec.setWidth_eq]

/-- Settles O26: the tree halves what is left to count; merging keeps each block's leading zeros. -/
theorem logarithmicTreesEqualLzc : Obligations.LogarithmicTreesEqualLzc :=
  fun x => ⟨lzc32Tree_eq_lzc32 x, lzc32Merge_eq_lzc32 x⟩

/-- Settles O45: no later command looks at what an `LZC` emitted. -/
theorem removingLzcCommandsRemovesTheirResponses : Obligations.RemovingLzcCommandsRemovesTheirResponses :=
  ⟨emissions_filter_isCrcCommand, fun s x => exec_eq_after (.lzc x) s⟩

/-- Settles O24: the loop, run on the four patterns. -/
theorem lzcOfTheSourcesFourPoints : Obligations.LzcOfTheSourcesFourPoints := by
  unfold Obligations.LzcOfTheSourcesFourPoints
  decide

/-- Settles O30: the response is the count, which only zero brings to 32. -/
theorem lzcCompletesWithCount : Obligations.LzcCompletesWithCount := by
  refine ⟨fun x s => ⟨countResponse (lzc32 x), toNat_countResponse (lzc32_le x), lzc32_le x, ?bitFive, exec_lzc x s⟩,
    encode_lzc, fun _ => decode_of_op_lzc, exec_lzc 0x00000000#32, fun x s negative => ?negative, exec_lzc 0x00000001#32⟩
  case bitFive => exact (countResponse_bit_five (lzc32_le x)).trans (lzc32_eq_32_iff x)
  case negative =>
    rw [exec_lzc, lzc32_of_bit_31 negative]
    rfl

end Sys2Proof.Machine
end

section
/-! SUPPORT. Numbers refused by name (R96), and the edge that resets (R98, R110). -/

namespace Sys2Proof

theorem fits_pattern_iff {n : Nat} : (LzcOperand.pattern n).fits = true ↔ n < 2 ^ 32 := decide_eq_true_iff

/-- A message whose numbers all fit expands to the commands of its bytes (R54). -/
theorem SourceCmd.expand_crc16_of_lt {ns : List Nat} (h : ∀ n ∈ ns, n < 2 ^ 8) :
    (SourceCmd.crc16 ns).expand = .ok (crc16Commands (ns.map (BitVec.ofNat 8))) := by
  have fits : ns.all byteFits = true := List.all_eq_true.2 fun n hn => byteFits_iff.2 (h n hn)
  rw [SourceCmd.expand, transcribeBytes_eq, if_pos fits]
  rfl

/-- One number that does not fit refuses the whole message (R96). -/
theorem SourceCmd.expand_crc16_of_le {ns : List Nat} (h : ∃ n ∈ ns, 2 ^ 8 ≤ n) :
    (SourceCmd.crc16 ns).expand = .error .byteOutOfRange := by
  obtain ⟨n, mem, wide⟩ := h
  have unfit : ¬ ns.all byteFits = true := fun fits =>
    Nat.not_lt.2 wide (byteFits_iff.1 (List.all_eq_true.1 fits n mem))
  rw [SourceCmd.expand, transcribeBytes_eq, if_neg unfit]
  rfl

/-- Numbers below 256 are the values of the bytes they are transcribed to (R47). -/
theorem map_toNat_map_ofNat {ns : List Nat} (h : ∀ n ∈ ns, n < 2 ^ 8) :
    (ns.map (BitVec.ofNat 8)).map BitVec.toNat = ns := by
  rw [List.map_map]
  exact (List.map_congr_left fun n hn => Nat.mod_eq_of_lt (h n hn)).trans (List.map_id ns)

end Sys2Proof

namespace Sys2Proof.Machine

/-- With `rst` asserted no command is accepted (R98). -/
theorem Sequencer.accepts_of_rst {m : Sequencer} {p : Ports} (h : p.rst = true) : m.accepts p = false := by
  simp [Sequencer.accepts, h]

/-- With `rst` asserted the edge does nothing but reset (R98, R110). -/
theorem Sequencer.edge_of_rst {m : Sequencer} {p : Ports} (h : p.rst = true) : m.edge p = m.afterReset := if_pos h

/-- After reset the block is ready for a command: the queue is empty and its depth is at least 1 (R7, R110). -/
@[simp] theorem Sequencer.afterReset_cmdReady (m : Sequencer) : m.afterReset.cmdReady = true := by
  have room : m.afterReset.queue.length < Config.rspDepth := Nat.succ_pos _
  exact decide_eq_true room

/-- After reset no response is presented (R110). -/
@[simp] theorem Sequencer.afterReset_rspValid (m : Sequencer) : m.afterReset.rspValid = false := rfl

end Sys2Proof.Machine
end

section
/-! THEOREMS. The statements about exceptions (60_exceptions.md), settled from the lemmas above. -/

namespace Sys2Proof.Machine

/-- Settles O38: `exec` and `step` answer next in every state, so a run of any length reaches a state. -/
theorem nothingEverFails : Obligations.NothingEverFails :=
  ⟨fun i s => ⟨after i s, exec_eq_after i s⟩, fun s n => exists_runsTo n s⟩

/-- Settles O59: a number that passes the check fits its field, so cutting it to the field keeps its value. -/
theorem patternsAndMessageBytesAreRefusedNotTruncated : Obligations.PatternsAndMessageBytesAreRefusedNotTruncated := by
  refine ⟨fun n => ⟨fun h => ?pattern, fun h => ?refused⟩, fun ns h => ?message, fun _ => SourceCmd.expand_crc16_of_le⟩
  case pattern => exact ⟨_, if_pos (fits_pattern_iff.2 h), Nat.mod_eq_of_lt h⟩
  case refused => exact if_neg fun fits => Nat.not_lt.2 h (fits_pattern_iff.1 fits)
  case message => exact ⟨_, SourceCmd.expand_crc16_of_lt h, map_toNat_map_ofNat h⟩

/-- Settles O50: the edge is a reset, after which the queue is empty. -/
theorem resetWinsAtAnEdge : Obligations.ResetWinsAtAnEdge := by
  intro m p rst
  rw [Sequencer.edge_of_rst rst]
  exact ⟨Sequencer.accepts_of_rst rst, rfl, m.afterReset_cmdReady, m.afterReset_rspValid⟩

end Sys2Proof.Machine
end

section
/-! SUPPORT. What legality asks of each phase, and what keeps it: the response handshake, an acceptance, a cycle of work
(R117, R120). -/

namespace Sys2Proof.Machine

/-- Only an idle sequencer with room in its queue is ready for a command (R120). -/
theorem Sequencer.cmdReady_iff {m : Sequencer} :
    m.cmdReady = true ↔ m.phase = .idle ∧ m.queue.length < Config.rspDepth := by
  simp [Sequencer.cmdReady]

theorem Sequencer.legal_of_idle_iff {m : Sequencer} (h : m.phase = .idle) :
    m.Legal ↔ m.cnt = 0#5 ∧ m.queue.length ≤ Config.rspDepth := by
  simp [Sequencer.Legal, h]

theorem Sequencer.legal_of_shift_iff {m : Sequencer} (h : m.phase = .shift) :
    m.Legal ↔ 1 ≤ m.cnt.toNat ∧ m.cnt.toNat ≤ (if m.fin then 16 else 8) ∧ (m.fin = true → m.sh = 0#8) ∧
      m.queue.length < Config.rspDepth := by
  simp [Sequencer.Legal, h]

/-- In every phase the queue fits its depth (R117). -/
theorem Sequencer.Legal.queue_length_le {m : Sequencer} (h : m.Legal) : m.queue.length ≤ Config.rspDepth := by
  cases phase : m.phase with
  | idle => exact ((Sequencer.legal_of_idle_iff phase).1 h).2
  | shift =>
    obtain ⟨-, -, -, room⟩ := (Sequencer.legal_of_shift_iff phase).1 h
    exact room.le

/-- The response handshake only shortens the queue (R58). -/
theorem Sequencer.taken_queue_length_le (m : Sequencer) (p : Ports) : (m.taken p).queue.length ≤ m.queue.length := by
  rw [← m.deliveredWord_append_taken p, List.length_append]
  exact Nat.le_add_left _ _

/-- A response that waits is taken by a host that is ready (R58). -/
theorem Sequencer.taken_queue_length_lt {m : Sequencer} {p : Ports} (ready : p.rspReady = true)
    (waiting : 0 < m.queue.length) : (m.taken p).queue.length < m.queue.length := by
  obtain ⟨v, rest, queue⟩ := List.exists_cons_of_length_pos waiting
  rw [← m.deliveredWord_append_taken p, Sequencer.deliveredWord_of_ready ready queue]
  exact Nat.lt_succ_self _

theorem Sequencer.Legal.taken {m : Sequencer} (h : m.Legal) (p : Ports) : (m.taken p).Legal := by
  have shorter := m.taken_queue_length_le p
  cases phase : m.phase with
  | idle =>
    obtain ⟨cnt, fits⟩ := (Sequencer.legal_of_idle_iff phase).1 h
    exact (Sequencer.legal_of_idle_iff ((m.taken_phase p).trans phase)).2
      ⟨(m.taken_cnt p).trans cnt, shorter.trans fits⟩
  | shift =>
    obtain ⟨some_left, few_left, zeros, room⟩ := (Sequencer.legal_of_shift_iff phase).1 h
    rw [Sequencer.legal_of_shift_iff ((m.taken_phase p).trans phase), m.taken_cnt, m.taken_fin, m.taken_sh]
    exact ⟨some_left, few_left, zeros, shorter.trans_lt room⟩

/-- A command accepted with room in the queue (R57): the room is for the response it may owe. -/
theorem Sequencer.Legal.accept {m : Sequencer} (h : m.Legal) (idle : m.phase = .idle)
    (room : m.queue.length < Config.rspDepth) (i : Instr) : (m.accept i).Legal := by
  obtain ⟨cnt, fits⟩ := (Sequencer.legal_of_idle_iff idle).1 h
  cases i with
  | crcInit => exact (Sequencer.legal_of_idle_iff (m := m.accept .crcInit) idle).2 ⟨cnt, fits⟩
  | crcByte byte =>
    exact (Sequencer.legal_of_shift_iff (m := m.accept (.crcByte byte)) rfl).2
      ⟨Nat.le_add_left 1 7, le_refl 8, nofun, room⟩
  | crcFinal =>
    exact (Sequencer.legal_of_shift_iff (m := m.accept .crcFinal) rfl).2
      ⟨Nat.le_add_left 1 15, le_refl 16, fun _ => rfl, room⟩
  | lzc x =>
    refine (Sequencer.legal_of_idle_iff (m := m.accept (.lzc x)) idle).2 ⟨cnt, ?_⟩
    rw [Sequencer.accept, Sequencer.enqueue, List.length_append]
    exact room

/-- The bit-steps left after one more, when there is one to do. -/
theorem toNat_cnt_sub_one {c : BitVec 5} (h : 1 ≤ c.toNat) : (c - 1#5).toNat = c.toNat - 1 :=
  BitVec.toNat_sub_of_le h

/-- A cycle of work (R120): the last one of a final fills the room kept for its response. -/
theorem Sequencer.Legal.shiftCycle {m : Sequencer} (h : m.Legal) (work : m.phase = .shift) : m.shiftCycle.Legal := by
  obtain ⟨some_left, few_left, zeros, room⟩ := (Sequencer.legal_of_shift_iff work).1 h
  by_cases last : m.cnt = 1#5
  · cases fin : m.fin with
    | false =>
      rw [Sequencer.shiftCycle_of_last_byte last fin]
      exact (Sequencer.legal_of_idle_iff rfl).2 ⟨rfl, room.le⟩
    | true =>
      rw [Sequencer.shiftCycle_of_last_final last fin]
      refine (Sequencer.legal_of_idle_iff rfl).2 ⟨rfl, ?_⟩
      rw [List.length_append]
      exact room
  · have several_left : m.cnt.toNat ≠ 1 := fun one => last (BitVec.eq_of_toNat_eq one)
    have one_less := toNat_cnt_sub_one some_left
    have still_work : m.shiftCycle.phase = .shift := by rwa [Sequencer.shiftCycle_of_more last]
    rw [Sequencer.legal_of_shift_iff still_work, Sequencer.shiftCycle_of_more last]
    refine ⟨?_, ?_, fun fin => ?_, room⟩
    · rw [one_less]; omega
    · rw [one_less]; exact (Nat.sub_le _ _).trans few_left
    · rw [zeros fin, BitVec.zero_shiftLeft]

/-- An edge, by what it does: reset, acceptance, waiting, or a cycle of work (R57, R98, R120). -/
theorem Sequencer.Legal.edge {m : Sequencer} (h : m.Legal) (p : Ports) : (m.edge p).Legal := by
  cases rst : p.rst with
  | true => exact Sequencer.edge_of_rst rst ▸ sequencerLegalAfterReset m
  | false =>
    cases phase : m.phase with
    | idle =>
      rw [Sequencer.edge_of_idle rst phase]
      split
      case isTrue accepted =>
        obtain ⟨-, -, -, room⟩ := Sequencer.accepts_cases accepted
        exact (h.taken p).accept ((m.taken_phase p).trans phase) ((m.taken_queue_length_le p).trans_lt room) _
      case isFalse => exact h.taken p
    | shift =>
      rw [Sequencer.edge_of_shift rst phase]
      exact (h.taken p).shiftCycle ((m.taken_phase p).trans phase)

theorem Sequencer.edges_cons (m : Sequencer) (p : Ports) (rest : List Ports) :
    m.edges (p :: rest) = (m.edge p).edges rest := rfl

theorem Sequencer.Legal.edges {m : Sequencer} (h : m.Legal) (ports : List Ports) : (m.edges ports).Legal := by
  induction ports generalizing m with
  | nil => exact h
  | cons p rest ih => exact ih (h.edge p)

end Sys2Proof.Machine
end

section
/-! SUPPORT. A command in execution: how many cycles it still takes and what its work comes to, along any edges without
reset (R119, R120). -/

namespace Sys2Proof.Machine

/-- In execution, with `more` cycles of work after the next one, and `result` in `reg` when they are done: the byte-step
of a `CRC_BYTE`, the checksum of a `CRC_FINAL`. -/
structure Sequencer.AtWork (m : Sequencer) (fin : Bool) (more : Nat) (result : RegWord) : Prop where
  phase : m.phase = .shift
  fin : m.fin = fin
  cnt : m.cnt.toNat = more + 1
  workedReg : m.workedReg = result

variable {m : Sequencer} {p : Ports} {ports : List Ports} {fin : Bool} {n : Nat} {r : RegWord}

@[simp] theorem Sequencer.taken_workedReg (m : Sequencer) (p : Ports) : (m.taken p).workedReg = m.workedReg := by
  simp [Sequencer.workedReg, Sequencer.cyclesLeft]

/-- The response handshake does not touch the work (R98). -/
theorem Sequencer.AtWork.taken (h : m.AtWork fin n r) (p : Ports) : (m.taken p).AtWork fin n r :=
  ⟨(m.taken_phase p).trans h.phase, (m.taken_fin p).trans h.fin, (m.taken_cnt p).symm ▸ h.cnt,
    (m.taken_workedReg p).trans h.workedReg⟩

theorem Sequencer.AtWork.cmdReady (h : m.AtWork fin n r) : m.cmdReady = false := by
  simp [Sequencer.cmdReady, h.phase]

/-- With no cycle after the next one, the counter is at 1. -/
theorem Sequencer.AtWork.cnt_of_last (h : m.AtWork fin 0 r) : m.cnt = 1#5 := BitVec.eq_of_toNat_eq h.cnt

theorem Sequencer.AtWork.shiftCycle (h : m.AtWork fin (n + 1) r) : m.shiftCycle.AtWork fin n r := by
  obtain ⟨phase, fin, cnt, worked⟩ := h
  have not_last : m.cnt ≠ 1#5 := fun one => by simp [one] at cnt
  have same := (Sequencer.workedReg_shiftCycle not_last).trans worked
  rw [Sequencer.shiftCycle_of_more not_last] at same ⊢
  refine ⟨phase, fin, ?_, same⟩
  exact (toNat_cnt_sub_one (by omega)).trans (by omega)

/-- An edge that is not the last of the work. -/
theorem Sequencer.AtWork.edge (h : m.AtWork fin (n + 1) r) (rst : p.rst = false) : (m.edge p).AtWork fin n r := by
  rw [Sequencer.edge_of_shift rst h.phase]
  exact (h.taken p).shiftCycle

/-- The last edge of a byte: `reg` is the result (R120). -/
theorem Sequencer.AtWork.edge_of_last_byte (h : m.AtWork false 0 r) (rst : p.rst = false) :
    (m.edge p).phase = .idle ∧ (m.edge p).reg = r := by
  have work := h.taken p
  rw [Sequencer.edge_of_shift rst h.phase, Sequencer.shiftCycle_of_last_byte work.cnt_of_last work.fin]
  exact ⟨rfl, (Sequencer.workedReg_of_last work.cnt_of_last).symm.trans work.workedReg⟩

/-- The last edge of a final: `reg` is cleared and the result is the last response in the queue (R120). -/
theorem Sequencer.AtWork.edge_of_last_final (h : m.AtWork true 0 r) (rst : p.rst = false) :
    (m.edge p).phase = .idle ∧ (m.edge p).reg = Config.regInit ∧
      (m.edge p).queue.getLast? = some (checksumResponse r) := by
  have work := h.taken p
  rw [Sequencer.edge_of_shift rst h.phase, Sequencer.shiftCycle_of_last_final work.cnt_of_last work.fin,
    ← Sequencer.workedReg_of_last work.cnt_of_last, work.workedReg]
  exact ⟨rfl, rfl, List.getLast?_concat⟩

/-- Edges that are not the last of the work. -/
theorem Sequencer.AtWork.edges (h : m.AtWork fin (n + ports.length) r) (rst : ∀ q ∈ ports, q.rst = false) :
    (m.edges ports).AtWork fin n r := by
  induction ports generalizing m with
  | nil => exact h
  | cons p rest ih =>
    obtain ⟨first, others⟩ := List.forall_mem_cons.1 rst
    exact ih (h.edge first) others

/-- While work is left, no command is accepted (R119). -/
theorem Sequencer.AtWork.edges_take_cmdReady (h : m.AtWork fin n r) (rst : ∀ q ∈ ports, q.rst = false)
    {k : Nat} (hk : k ≤ n) : (m.edges (ports.take k)).cmdReady = false := by
  have short : (ports.take k).length ≤ n := (List.length_take_le k ports).trans hk
  have left : m.AtWork fin (n - (ports.take k).length + (ports.take k).length) r := by
    rwa [Nat.sub_add_cancel short]
  exact (left.edges fun q hq => rst q (List.mem_of_mem_take hq)).cmdReady

/-- All the edges of the work: the last of them starts with one cycle left. -/
theorem Sequencer.AtWork.edges_eq_edge_of_last (h : m.AtWork fin n r) (rst : ∀ q ∈ ports, q.rst = false)
    (length : ports.length = n + 1) :
    ∃ (last : Sequencer) (q : Ports), q.rst = false ∧ last.AtWork fin 0 r ∧ m.edges ports = last.edge q := by
  obtain ⟨earlier, q, rfl⟩ := (List.eq_nil_or_concat' ports).resolve_left (by rintro rfl; cases length)
  obtain rfl : earlier.length = n := by simpa using length
  have noReset := List.forall_mem_append.1 rst
  exact ⟨m.edges earlier, q, noReset.2 q List.mem_cons_self, .edges (by rwa [Nat.zero_add]) noReset.1,
    List.foldl_append⟩

/-- After all its edges the sequencer is idle, whichever command it was. -/
theorem Sequencer.AtWork.edges_phase (h : m.AtWork fin n r) (rst : ∀ q ∈ ports, q.rst = false)
    (length : ports.length = n + 1) : (m.edges ports).phase = .idle := by
  obtain ⟨last, q, noReset, work, same⟩ := h.edges_eq_edge_of_last rst length
  rw [same]
  cases fin with
  | false => exact (work.edge_of_last_byte noReset).1
  | true => exact (work.edge_of_last_final noReset).1

/-- A legal sequencer in `SHIFT` is at work on at most 16 cycles. -/
theorem Sequencer.Legal.atWork (h : m.Legal) (work : m.phase = .shift) :
    ∃ n, n < 16 ∧ m.AtWork m.fin n m.workedReg := by
  obtain ⟨some_left, few_left, -⟩ := (Sequencer.legal_of_shift_iff work).1 h
  have bound : m.cnt.toNat ≤ 16 := few_left.trans (by split <;> decide)
  exact ⟨m.cnt.toNat - 1, by omega, work, rfl, by omega, rfl⟩

/-- The edge that accepts a command (R57, R58): the response handshake, then the command. -/
theorem Sequencer.edge_of_accepts (h : m.accepts p = true) : m.edge p = (m.taken p).accept (decode p.cmd) := by
  obtain ⟨rst, -, idle, -⟩ := Sequencer.accepts_cases h
  rw [Sequencer.edge_of_idle rst idle, if_pos h]

theorem Sequencer.edge_atWork_of_crcByte {byte : Byte} (h : m.accepts p = true) (cmd : decode p.cmd = .crcByte byte) :
    (m.edge p).AtWork false 7 (bytestep m.reg byte) := by
  rw [Sequencer.edge_of_accepts h, cmd]
  exact ⟨rfl, rfl, rfl, by rw [Sequencer.workedReg_accept_crcByte, m.taken_reg]⟩

theorem Sequencer.edge_atWork_of_crcFinal (h : m.accepts p = true) (cmd : decode p.cmd = .crcFinal) :
    (m.edge p).AtWork true 15 (flush m.reg) := by
  rw [Sequencer.edge_of_accepts h, cmd]
  exact ⟨rfl, rfl, rfl, by rw [Sequencer.workedReg_accept_crcFinal, m.taken_reg]⟩

end Sys2Proof.Machine
end

section
/-! SUPPORT. The queue and `cmd_ready`: a full queue costs a host that takes its responses one edge, and stalls one that
takes none for ever (R117, R121, R122). -/

namespace Sys2Proof.Machine

/-- A legal idle sequencer that is not ready has a full queue; the edge that takes a response makes room. -/
theorem Sequencer.Legal.cmdReady_or_cmdReady_edge {m : Sequencer} {p : Ports} (h : m.Legal) (idle : m.phase = .idle)
    (rst : p.rst = false) (ready : p.rspReady = true) : m.cmdReady = true ∨ (m.edge p).cmdReady = true := by
  by_cases room : m.queue.length < Config.rspDepth
  · exact .inl (Sequencer.cmdReady_iff.2 ⟨idle, room⟩)
  · have depth_pos : 0 < Config.rspDepth := Nat.succ_pos _
    have refused : ¬ m.accepts p = true := fun accepted =>
      have ⟨_, _, _, space⟩ := Sequencer.accepts_cases accepted
      room space
    have shorter := Sequencer.taken_queue_length_lt (m := m) ready (by omega)
    rw [Sequencer.edge_of_idle rst idle, if_neg refused]
    exact .inr (Sequencer.cmdReady_iff.2 ⟨(m.taken_phase p).trans idle, shorter.trans_le h.queue_length_le⟩)

/-- From a legal sequencer that is idle after `k` edges, `cmd_ready` is 1 then or one edge later (R121). -/
theorem Sequencer.Legal.exists_cmdReady_of_idle {m : Sequencer} {ports : List Ports} (h : m.Legal) {k : Nat}
    (hk : k < ports.length) (duty : ∀ p ∈ ports, p.rst = false ∧ p.rspReady = true)
    (idle : (m.edges (ports.take k)).phase = .idle) :
    ∃ j, j ≤ k + 1 ∧ (m.edges (ports.take j)).cmdReady = true := by
  obtain ⟨rst, ready⟩ := duty ports[k] (List.getElem_mem hk)
  have next : m.edges (ports.take (k + 1)) = (m.edges (ports.take k)).edge ports[k] := by
    rw [List.take_succ_eq_append_getElem hk]
    exact List.foldl_append
  rcases (h.edges (ports.take k)).cmdReady_or_cmdReady_edge idle rst ready with now | later
  · exact ⟨k, k.le_succ, now⟩
  · exact ⟨k + 1, le_rfl, next ▸ later⟩

/-- A full queue is legal in `IDLE` only: in `SHIFT` there is room for a response (R117). -/
theorem Sequencer.Legal.phase_of_full {m : Sequencer} (h : m.Legal) (full : m.queue.length = Config.rspDepth) :
    m.phase = .idle := by
  cases phase : m.phase with
  | idle => rfl
  | shift =>
    obtain ⟨-, -, -, room⟩ := (Sequencer.legal_of_shift_iff phase).1 h
    exact absurd full room.ne

/-- With a full queue no command is accepted (R117, R120). -/
theorem Sequencer.cmdReady_of_full {m : Sequencer} (full : m.queue.length = Config.rspDepth) : m.cmdReady = false := by
  simp [Sequencer.cmdReady, full]

/-- With a full queue and no response taken an edge changes nothing (R117). -/
theorem Sequencer.Legal.edge_of_full {m : Sequencer} {p : Ports} (h : m.Legal) (full : m.queue.length = Config.rspDepth)
    (rst : p.rst = false) (notReady : p.rspReady = false) : m.edge p = m := by
  have refused : m.accepts p = false := by simp [Sequencer.accepts, Sequencer.cmdReady_of_full full]
  rw [Sequencer.edge_of_idle rst (h.phase_of_full full), refused, Sequencer.taken_of_not_ready notReady]
  rfl

end Sys2Proof.Machine
end

section
/-! THEOREMS. The statements about reset and hazards (70_reset_and_hazards.md), settled from the lemmas above. -/

namespace Sys2Proof.Machine

/-- Settles O53: the response handshake, an acceptance, a cycle of work and reset each keep legality. -/
theorem sequencerStaysLegal : Obligations.SequencerStaysLegal := fun _ p legal => legal.edge p

/-- Settles O55: the accepting edge puts a byte or a final to work, and each further edge does one bit-step of it. -/
theorem sequencerTakesEightAndSixteenCycles : Obligations.SequencerTakesEightAndSixteenCycles := by
  intro m p accepted
  obtain ⟨-, -, idle, -⟩ := Sequencer.accepts_cases accepted
  have taken_idle := (m.taken_phase p).trans idle
  refine ⟨fun cmd => ?init, fun x cmd => ?lzc, fun byte ports cmd length rst => ?byte, fun ports cmd length rst => ?final⟩
  case init =>
    rw [Sequencer.edge_of_accepts accepted, cmd]
    exact ⟨taken_idle, rfl⟩
  case lzc =>
    rw [Sequencer.edge_of_accepts accepted, cmd]
    exact ⟨taken_idle, m.taken_reg p, List.getLast?_concat⟩
  case byte =>
    have work := Sequencer.edge_atWork_of_crcByte accepted cmd
    obtain ⟨last, q, noReset, lastWork, same⟩ := work.edges_eq_edge_of_last rst length
    rw [m.edges_cons p ports, same]
    exact ⟨fun k hk => work.edges_take_cmdReady rst (Nat.le_of_lt_succ hk), lastWork.edge_of_last_byte noReset⟩
  case final =>
    have work := Sequencer.edge_atWork_of_crcFinal accepted cmd
    obtain ⟨last, q, noReset, lastWork, same⟩ := work.edges_eq_edge_of_last rst length
    rw [m.edges_cons p ports, same]
    exact ⟨fun k hk => work.edges_take_cmdReady rst (Nat.le_of_lt_succ hk), lastWork.edge_of_last_final noReset⟩

/-- Settles O57: at most 16 edges bring the sequencer to `IDLE`, and one more makes room in a full queue. -/
theorem readyAgainWithinSeventeenEdges : Obligations.ReadyAgainWithinSeventeenEdges := by
  intro m ports legal length duty
  obtain ⟨k, few, idle⟩ : ∃ k, k ≤ 16 ∧ (m.edges (ports.take k)).phase = .idle := by
    cases phase : m.phase with
    | idle => exact ⟨0, Nat.zero_le _, phase⟩
    | shift =>
      obtain ⟨n, few, work⟩ := legal.atWork phase
      refine ⟨n + 1, few, work.edges_phase (fun q hq => (duty q (List.mem_of_mem_take hq)).1) ?_⟩
      exact List.length_take_of_le (by omega)
  obtain ⟨j, hj, ready⟩ := legal.exists_cmdReady_of_idle (by omega) duty idle
  exact ⟨j, by omega, ready⟩

/-- Settles O58, by induction over the edges: each of them leaves the sequencer as it is. -/
theorem fullQueueStallsUntilAResponseIsTaken : Obligations.FullQueueStallsUntilAResponseIsTaken := by
  intro m ports legal full stall
  have same : m.edges ports = m := by
    induction ports with
    | nil => rfl
    | cons p rest ih =>
      obtain ⟨⟨rst, notReady⟩, others⟩ := List.forall_mem_cons.1 stall
      rw [Sequencer.edges_cons, legal.edge_of_full full rst notReady]
      exact ih others
  rw [same]
  exact ⟨Sequencer.cmdReady_of_full full, rfl⟩

/-- Settles O37: the next event is the reset, which keeps only the events after it. -/
theorem resetFromEveryState : Obligations.ResetFromEveryState := by
  intro s rest input
  rw [step_eq_following, following_of_input input]
  rfl

end Sys2Proof.Machine
end
